-- ==== Sys2Proof/Word.lean ====
section
/-! DEFINITION. The word types of DCFB: the command word (R60), a byte of the array (R21), the response data (R25). -/

namespace Sys2Proof

/-- One command word, bit 31 most significant (R60). -/
abbrev Word := BitVec 32

/-- One byte; bit 0 is its least-significant bit (R10). -/
abbrev Byte := BitVec 8

/-- `RSP_DATA`, the result of a command (R25). -/
abbrev Data := BitVec 16

end Sys2Proof
end

