-- ==== Sys2Proof/Syntax.lean ====
section
/-! DEFINITION. The eleven commands of R64, one constructor per row of the opcode table. -/

namespace Sys2Proof

/-- A command with its operands. Coordinates, widths and segment indexes are natural numbers, as the pseudocode uses
them (R10); `WellFormed` holds them to their fields (R9). -/
inductive Instr where
  /-- CONSTRUCT, op 0x1: start a buffer of `w` columns (R80). -/
  | construct (w : Nat)
  /-- GET_PIXEL, op 0x2 (R82). -/
  | getPixel (x y : Nat)
  /-- SET_PIXEL, op 0x3; `v` is `b[0]` (R84, R63). -/
  | setPixel (x y : Nat) (v : Bool)
  /-- SET_PIXEL_EXP, op 0x4; `v` is `b[0]` (R86, R63). -/
  | setPixelExp (x y : Nat) (v : Bool)
  /-- GET_COLUMN, op 0x5 (R88). -/
  | getColumn (x : Nat)
  /-- SHIFT_LEFT, op 0x6; `c` is the incoming column byte (R90). -/
  | shiftLeft (c : Byte)
  /-- RAW_READ, op 0x7; `seg` is the segment index in field `x` (R93, R61). -/
  | rawRead (y seg : Nat)
  /-- CLEAR, op 0x8 (R94). -/
  | clear
  /-- ENC_INIT, op 0x9 (R122). -/
  | encInit
  /-- ENC_REFRESH, op 0xA (R124). -/
  | encRefresh
  /-- READ_SEGCOUNT, op 0xB (R95). -/
  | readSegcount
  deriving DecidableEq, Repr

end Sys2Proof
end

