-- ==== Sys2Proof/WellFormed.lean ====
section
/-! DEFINITION. Which operands fit their fields (R9, R60): `x` 16 bits, `y` 4 bits. "An operand that does not fit its
field ... is an assembly error, not an encoding" (R72). The byte and the pixel value fit by their types. -/

namespace Sys2Proof

/-- Fits field `x`, 16 bits unsigned (R9, R61). -/
def fitsX (x : Nat) : Bool := x < 65536

/-- Fits field `y`, 4 bits unsigned (R9, R62). -/
def fitsY (y : Nat) : Bool := y < 16

/-- Every operand of the command fits its field. -/
def Instr.wellFormed : Instr → Bool
  | .construct w => fitsX w
  | .getPixel x y => fitsX x && fitsY y
  | .setPixel x y _ => fitsX x && fitsY y
  | .setPixelExp x y _ => fitsX x && fitsY y
  | .getColumn x => fitsX x
  | .shiftLeft _ => true
  | .rawRead y seg => fitsY y && fitsX seg
  | .clear => true
  | .encInit => true
  | .encRefresh => true
  | .readSegcount => true

end Sys2Proof
end

