-- ==== Sys2Proof/Decode.lean ====
section
/-! DEFINITION. Decoding is total on every 32-bit word (R70); the encoder is written from the same field table (R60). -/

namespace Sys2Proof

/-- Why a word is illegal (R69). Both end with status `ILLEGAL`. -/
inductive Illegal where
  /-- its `op` is 0x0 or 0xC..0xF -/
  | reservedOp
  /-- it has the opcode of a row but a field that must be 0 is not -/
  | mustBeZero
  deriving DecidableEq, Repr

/-- Field `op`, bits 31:28 (R60). -/
def opField (w : Word) : BitVec 4 := w.extractLsb' 28 4

/-- Field `y`, bits 27:24 (R60). -/
def yField (w : Word) : BitVec 4 := w.extractLsb' 24 4

/-- Field `b`, bits 23:16 (R60). -/
def bField (w : Word) : BitVec 8 := w.extractLsb' 16 8

/-- Field `x`, bits 15:0 (R60). -/
def xField (w : Word) : BitVec 16 := w.extractLsb' 0 16

/-- One row of R64: the word selects the command when `(word & mask) == match`. -/
def selectRow (w mask pattern : Word) (i : Instr) : Except Illegal Instr :=
  if w &&& mask = pattern then .ok i else .error .mustBeZero

/-- `Decode(word)` of R70, over the rows of R64. -/
def decode (w : Word) : Except Illegal Instr :=
  let x := (xField w).toNat
  let y := (yField w).toNat
  let b := bField w
  let v := b.getLsbD 0
  match (opField w).toNat with
  | 1 => selectRow w 0xFFFF0000 0x10000000 (.construct x)
  | 2 => selectRow w 0xF0FF0000 0x20000000 (.getPixel x y)
  | 3 => selectRow w 0xF0FE0000 0x30000000 (.setPixel x y v)
  | 4 => selectRow w 0xF0FE0000 0x40000000 (.setPixelExp x y v)
  | 5 => selectRow w 0xFFFF0000 0x50000000 (.getColumn x)
  | 6 => selectRow w 0xFF00FFFF 0x60000000 (.shiftLeft b)
  | 7 => selectRow w 0xF0FF0000 0x70000000 (.rawRead y x)
  | 8 => selectRow w 0xFFFFFFFF 0x80000000 .clear
  | 9 => selectRow w 0xFFFFFFFF 0x90000000 .encInit
  | 10 => selectRow w 0xFFFFFFFF 0xA0000000 .encRefresh
  | 11 => selectRow w 0xFFFFFFFF 0xB0000000 .readSegcount
  | _ => .error .reservedOp

/-- A word from its four fields, `op` most significant (R60). -/
def packFields (op y : BitVec 4) (b : BitVec 8) (x : BitVec 16) : Word := op ++ y ++ b ++ x

/-- Field `b` of a pixel write: `b[0]` is the value, `b[7:1]` is 0 (R63). -/
def pixelByte (v : Bool) : BitVec 8 := if v then 1 else 0

/-- The word of a command: its row of R64 with the operands in their fields. -/
def encode : Instr → Word
  | .construct w => packFields 0x1 0 0 (BitVec.ofNat 16 w)
  | .getPixel x y => packFields 0x2 (BitVec.ofNat 4 y) 0 (BitVec.ofNat 16 x)
  | .setPixel x y v => packFields 0x3 (BitVec.ofNat 4 y) (pixelByte v) (BitVec.ofNat 16 x)
  | .setPixelExp x y v => packFields 0x4 (BitVec.ofNat 4 y) (pixelByte v) (BitVec.ofNat 16 x)
  | .getColumn x => packFields 0x5 0 0 (BitVec.ofNat 16 x)
  | .shiftLeft c => packFields 0x6 0 c 0
  | .rawRead y seg => packFields 0x7 (BitVec.ofNat 4 y) 0 (BitVec.ofNat 16 seg)
  | .clear => packFields 0x8 0 0 0
  | .encInit => packFields 0x9 0 0 0
  | .encRefresh => packFields 0xA 0 0 0
  | .readSegcount => packFields 0xB 0 0 0

/-- A command word given as the number of its low `nbits` bits, the bits above being 0. The word is parallel (R44), so
its bits are numbered as the opcode table numbers them. -/
def wordOfTable (nbits w : Nat) : Word := BitVec.ofNat 32 (w % 2 ^ nbits)

/-- The command the decoder reads from a table word; none where it is illegal. -/
def decodeTableWord (nbits w : Nat) : Option Instr :=
  match decode (wordOfTable nbits w) with
  | .ok i => some i
  | .error _ => none

end Sys2Proof
end

