-- ==== Sys2Proof/Config.lean ====
section
/-! DEFINITION. The implementation parameters of R8, "fixed when the hardware is built" (R164). -/

namespace Sys2Proof

/-- The parameters of R8. A model takes each one as an argument: `State` carries them and no step writes them
(DESIGN CHOICE, log entry 1). -/
structure Config where
  /-- `S_MAX`: storage capacity in segments per row. -/
  sMax : Nat
  /-- `N_SEG`: segments in the physical chain. -/
  nSeg : Nat
  /-- `NOOP_DATA`: value byte of a no-op placeholder (U1). -/
  noopData : Byte
  /-- `INIT_TEST`: value written to register 0x0F. -/
  initTest : Byte
  /-- `INIT_SHUTDOWN`: value written to register 0x0C. -/
  initShutdown : Byte
  /-- `INIT_INTENSITY`: value written to register 0x0A. -/
  initIntensity : Byte
  /-- `INIT_SCANLIMIT`: value written to register 0x0B. -/
  initScanLimit : Byte
  deriving DecidableEq, Repr

/-- The bounds of R8: 1 ≤ S_MAX ≤ 8192 and 1 ≤ N_SEG ≤ min(S_MAX, 8191). -/
abbrev Config.Legal (c : Config) : Prop :=
  1 ≤ c.sMax ∧ c.sMax ≤ 8192 ∧ 1 ≤ c.nSeg ∧ c.nSeg ≤ min c.sMax 8191

/-- The configuration of `State.reset`: R8's defaults for the five bytes, and for the two OPEN parameters the values
95_test_vectors uses unless it says otherwise (DESIGN CHOICE, unsafe, log entries 1 and 2). -/
def Config.default : Config where
  sMax := 16
  nSeg := 2
  noopData := 0x00
  initTest := 0x00
  initShutdown := 0x01
  initIntensity := 0x00
  initScanLimit := 0x07

end Sys2Proof
end

