-- ==== Sys2Proof/Machine/State.lean ====
section
/-! DEFINITION. The state of DCFB (10_state.md), its inputs from outside, the observed transport stream, and reset. -/

namespace Sys2Proof.Machine

/-- The frame-buffer array `B` (R21): (address, byte) pairs in one canonical form, addresses strictly rising and no
byte equal to 0x00, which is what an unlisted address reads as (log entry 8). -/
abbrev Memory := List Host.Cell

/-- The hidden encoder sequencer (R27): the position of an ENC_INIT or ENC_REFRESH in progress. -/
inductive Sequencer where
  | idle
  /-- broadcast index of ENC_INIT, 0..3 -/
  | init (i : Nat)
  /-- row register 1..8 and target segment 0..N_SEG−1 of ENC_REFRESH -/
  | refresh (r t : Nat)
  deriving DecidableEq, Repr

/-- What the transport does with one transaction: "a free input of the step" (R120), or no answer at all (R171, U6). -/
inductive TxAnswer where
  | ok
  | fail
  | silent
  deriving DecidableEq, Repr

/-- How a transaction handed to the transport ended: answered OK, answered FAIL, or cut short by reset (R161). -/
inductive TxEnd where
  | ok
  | fail
  | cut
  deriving DecidableEq, Repr

/-- One bus transaction: its bytes in the order sent (R67) and how it ended. -/
structure TxRecord where
  bytes : List Byte
  ended : TxEnd
  deriving DecidableEq, Repr

/-- One thing the host does (R20, R65, R160, R161). -/
inductive HostEvent where
  /-- presents a command word with `cmd_valid` = 1 -/
  | command (w : Word)
  /-- asserts `rst` while no command runs -/
  | rst
  /-- presents a command word, and asserts `rst` before its response, once `k` of its transactions have been answered -/
  | commandCutByRst (w : Word) (k : Nat)
  deriving DecidableEq, Repr

/-- Everything the machine holds. `cfg` is the argument of R8, never written. `mem` to `seq` are DCFB's state. `hostIn`,
`txScript` and `txRest` are inputs from outside and `txLog` is the transport stream as observed (log entries 4, 5, 7). -/
structure State where
  cfg : Config
  /-- `B` (R21). -/
  mem : Memory
  /-- `S`, the segment-count register (R23). -/
  segCount : Nat
  /-- `RSP_STATUS` (R25). -/
  rspStatus : BitVec 3
  /-- `RSP_DATA` (R25). -/
  rspData : Data
  /-- `rsp_valid` (R66). -/
  rspValid : Bool
  /-- `BUSY` (R26). -/
  busy : Bool
  /-- The encoder sequencer (R27). -/
  seq : Sequencer
  /-- What the host does next, oldest first. -/
  hostIn : List HostEvent
  /-- The transport's next answers, oldest first. -/
  txScript : List TxAnswer
  /-- The transport's answer once `txScript` is used up. -/
  txRest : TxAnswer
  /-- Every transaction handed to the transport, oldest first. -/
  txLog : List TxRecord
  deriving DecidableEq, Repr

/-- Why the machine is stuck. -/
inductive Fault where
  /-- Raised by ENC_INIT and ENC_REFRESH when the transport never answers a transaction: "DCFB stays `BUSY` forever ...
  and a model must not step past it" (R171, U6). Safe: the model stops where the hardware waits. -/
  | transportSilent
  deriving DecidableEq, Repr

/-- Why the model gives no step. -/
inductive Refusal where
  /-- Raised by `exec` for a command with no meaning yet; no arm does. Safe. -/
  | notModelled (mnemonic : String)
  /-- Raised by `step` for parameters outside R8's bounds: "no model exists for such a configuration" (U9). Safe. -/
  | illegalConfiguration
  deriving DecidableEq, Repr

/-- The machine built with parameters `c`, right after reset (R30), before any input. -/
def State.resetWith (c : Config) : State where
  cfg := c
  mem := []
  segCount := 0
  rspStatus := 0
  rspData := 0
  rspValid := false
  busy := false
  seq := .idle
  hostIn := []
  txScript := []
  txRest := .ok
  txLog := []

/-- The machine right after reset (R30), with the parameters of `Config.default`. -/
def State.reset : State := State.resetWith Config.default

end Sys2Proof.Machine
end

