-- ==== Sys2Proof/Machine/Flags.lean ====
section
/-! DEFINITION. `RSP_STATUS`, the only flag of DCFB (R28): its codes (R140). -/

namespace Sys2Proof.Machine

/-- The statuses a command can end with (R140). -/
inductive Status where
  | ok
  | illegal
  | invalidArgument
  | capacity
  | ioError
  deriving DecidableEq, Repr

/-- The code of a status; 5..7 are never produced (R140). -/
def statusCode : Status → BitVec 3
  | .ok => 0
  | .illegal => 1
  | .invalidArgument => 2
  | .capacity => 3
  | .ioError => 4

/-- Response data of a pixel: 0x0001 if it is on, else 0x0000 (R66). -/
def pixelData (on : Bool) : Data := if on then 1 else 0

end Sys2Proof.Machine
end

