-- ==== Sys2Proof/Machine/Ops.lean ====
section
/-! DEFINITION. The named operations over `B`, the response registers and the transport (R11, R120, R141, R160). -/

namespace Sys2Proof.Machine

/-! ### The array `B` -/

/-- What an address with no entry reads as (DESIGN CHOICE, log entry 8; never observed, R21). -/
def fillByte : Byte := 0x00

/-- The byte at an address. -/
def Memory.read : Memory → Nat → Byte
  | [], _ => fillByte
  | (a, v) :: m, k => if a = k then v else Memory.read m k

/-- The memory without any entry for `k`. -/
def Memory.erase (m : Memory) (k : Nat) : Memory := m.filter (fun c => decide (c.1 ≠ k))

/-- Put an entry in its place among rising addresses. -/
def Memory.insert : Memory → Nat → Byte → Memory
  | [], k, v => [(k, v)]
  | (a, b) :: m, k, v => if k < a then (k, v) :: (a, b) :: m else (a, b) :: Memory.insert m k v

/-- Write one byte; writing `fillByte` leaves no entry, so that equal memories are equal lists. -/
def Memory.write (m : Memory) (k : Nat) (v : Byte) : Memory :=
  if v = fillByte then m.erase k else Memory.insert (m.erase k) k v

/-- Every entry of the list lies above `k` and is not `fillByte`, and addresses rise strictly. -/
def Memory.wfAbove : Option Nat → Memory → Bool
  | _, [] => true
  | none, (a, v) :: m => decide (v ≠ fillByte) && Memory.wfAbove (some a) m
  | some k, (a, v) :: m => decide (k < a) && decide (v ≠ fillByte) && Memory.wfAbove (some a) m

/-- The canonical form: addresses strictly rising, no entry equal to `fillByte`. -/
def Memory.wf (m : Memory) : Bool := Memory.wfAbove none m

/-- The address of byte (y, seg): row-major, a row being S_MAX bytes long (R21, R22; DESIGN CHOICE, log entry 9). -/
def cellAddr (c : Config) (y seg : Nat) : Nat := y * c.sMax + seg

/-- `MemRead((y, seg), 1)` (R11). -/
def memRead (s : State) (y seg : Nat) : Byte := s.mem.read (cellAddr s.cfg y seg)

/-- `MemWrite((y, seg), 1, v)` (R11). -/
def memWrite (s : State) (y seg : Nat) (v : Byte) : State :=
  { s with mem := s.mem.write (cellAddr s.cfg y seg) v }

/-- The address is that of a byte (y, seg) with y < 8 and lo ≤ seg < hi. -/
def inSegments (c : Config) (lo hi a : Nat) : Bool :=
  decide (a / c.sMax < 8) && decide (lo ≤ a % c.sMax) && decide (a % c.sMax < hi)

/-- `for y in 0..7: for seg in lo..hi-1: MemWrite((y, seg), 1, 0x00)`, all at once
(`zeroSegments_eq_loop` in Laws/Memory.lean proves it equal to that loop). -/
def zeroSegments (lo hi : Nat) (s : State) : State :=
  { s with mem := s.mem.filter (fun cell => !inSegments s.cfg lo hi cell.1) }

/-! ### The response registers -/

/-- The end of every command (R25, R66): both response registers are written, `rsp_valid` is 1 and `BUSY` is 0. -/
def complete (st : Status) (d : Data) (s : State) : State :=
  { s with rspStatus := statusCode st, rspData := d, rspValid := true, busy := false }

/-- `respond(d)` (R11): status OK and data `d`. -/
def respond (d : Data) (s : State) : State := complete .ok d s

/-- `raise <Status>` (R141): DCFB's one way to take an error. The status is written, `RSP_DATA` is 0x0000, nothing is
saved or vectored (R146). -/
def raise (st : Status) (s : State) : State := complete st 0 s

/-- Acceptance of a command (R26, R65, R66): `BUSY` is 1 and the previous response is gone. -/
def accept (s : State) : State := { s with busy := true, rspValid := false }

/-- `cmd_ready` = NOT `BUSY` (R65). -/
def cmdReady (s : State) : Bool := !s.busy

/-- `rst` (R30, R160): every register of DCFB takes its reset value. The bytes of `B` are unspecified and not visible;
the model keeps them (DESIGN CHOICE, log entry 8). Parameters, pending inputs and the stream already sent stay. -/
def hardReset (s : State) : State :=
  { s with segCount := 0, rspStatus := 0, rspData := 0, rspValid := false, busy := false, seq := .idle }

/-! ### The transport -/

/-- The transport's answer to the `n`-th transaction from now (R120). -/
def answerAt (s : State) (n : Nat) : TxAnswer := s.txScript.getD n s.txRest

/-- Add a transaction to the observed stream. -/
def logTx (bytes : List Byte) (e : TxEnd) (s : State) : State := { s with txLog := s.txLog ++ [⟨bytes, e⟩] }

/-- How a run of transactions went. -/
inductive Sent where
  /-- every one was answered OK -/
  | allOk (s : State)
  /-- the last one sent was answered FAIL -/
  | failed (s : State)
  /-- the transaction `bytes` is never answered -/
  | hung (bytes : List Byte) (s : State)

/-- `Transmit` of each frame of a plan in order, the sequencer standing at the frame's position (R27, R120): stops at
the first transaction not answered OK (R121). -/
def transmitAll : List (Sequencer × List Byte) → State → Sent
  | [], s => .allOk s
  | (pos, bytes) :: rest, s =>
    let s' := { s with seq := pos, txScript := s.txScript.tail }
    match answerAt s 0 with
    | .ok => transmitAll rest (logTx bytes .ok s')
    | .fail => .failed (logTx bytes .fail s')
    | .silent => .hung bytes s'

/-- The end of an encoder command: the sequencer is idle (R27) and the status says how the transactions went (R121). A
transaction that is never answered leaves DCFB stuck (R171). -/
def finishTransmit : Sent → Host.Outcome State Fault Refusal
  | .allOk s => .next (respond 0 { s with seq := .idle })
  | .failed s => .next (raise .ioError { s with seq := .idle })
  | .hung _ _ => .fault .transportSilent

/-- What the first `k` transactions of a plan do before `rst` cuts the command off, and the transaction then in progress
(R161). -/
def transmitUntilCut (k : Nat) (plan : List (Sequencer × List Byte)) (s : State) : State :=
  match transmitAll (plan.take k) s with
  | .allOk s' =>
    match plan[k]? with
    | some (_, bytes) => logTx bytes .cut s'
    | none => s'
  | .failed s' => s'
  | .hung bytes s' => logTx bytes .cut s'

end Sys2Proof.Machine
end

