-- ==== Sys2Proof/Machine/Operands.lean ====
section
/-! DEFINITION. The operand forms: pixel (x, y), raw byte (y, seg) and column byte (20_memory.md R40 to R42). -/

namespace Sys2Proof.Machine

/-- Segment of column x (R40). -/
def segOf (x : Nat) : Nat := x / 8

/-- Bit of column x in its byte (R40). -/
def bitOf (x : Nat) : Nat := x % 8

/-- (x, y) is within the current bounds (R40, R84). -/
def inBounds (s : State) (x y : Nat) : Bool := decide (y < 8) && decide (x < 8 * s.segCount)

/-- `P(x, y)` of R40: the pixel, off outside the bounds. -/
def pixel (s : State) (x y : Nat) : Bool :=
  inBounds s x y && (memRead s y (segOf x)).getLsbD (bitOf x)

/-- `RAW_READ`'s byte, 0x00 out of range (R93); the encoder's `RawByte` (R124). -/
def rawByte (s : State) (y seg : Nat) : Byte :=
  if y < 8 ∧ seg < s.segCount then memRead s y seg else 0x00

/-- A byte with one bit set in position `i`, or none. -/
def bitAt (v : Bool) (i : Nat) : Byte := if v then (1 : Byte) <<< i else 0

/-- `(old AND NOT (1 << i)) OR (v << i)` (R84). -/
def setBit (old : Byte) (i : Nat) (v : Bool) : Byte := (old &&& ~~~((1 : Byte) <<< i)) ||| bitAt v i

/-- The column byte as R88 builds it: each row's bit enters as the new high bit of a running shift. -/
def columnByte (s : State) (x : Nat) : Byte :=
  (List.range 8).foldl (fun acc y => (acc >>> 1) ||| bitAt (pixel s x y) 7) 0

end Sys2Proof.Machine
end

