-- ==== Sys2Proof/Machine/Encoder.lean ====
section
/-! DEFINITION. The row-encoder commands (45_row_encoder.md). A plan is the frames a command hands to the transport, in
order, each with the sequencer position it is sent from (R27). -/

namespace Sys2Proof.Machine

/-- A broadcast write: one 2-byte command repeated once per segment (R122). -/
def broadcastFrame (c : Config) (reg value : Byte) : List Byte :=
  (List.range c.nSeg).flatMap (fun _ => [reg, value])

/-- The four broadcast writes of ENC_INIT, in the order of R122. -/
def initPlan (c : Config) : List (Sequencer × List Byte) :=
  [ (.init 0, broadcastFrame c 0x0F c.initTest),
    (.init 1, broadcastFrame c 0x0C c.initShutdown),
    (.init 2, broadcastFrame c 0x0A c.initIntensity),
    (.init 3, broadcastFrame c 0x0B c.initScanLimit) ]

/-- ENC_INIT (R122). -/
def execEncInit (s : State) : Host.Outcome State Fault Refusal :=
  finishTransmit (transmitAll (initPlan s.cfg) s)

/-- The frame of row register r and target segment t (R124): slot k is for chain position N_SEG−1−k (R43), the target's
command carries the row byte and every other slot is a no-op. -/
def refreshFrame (s : State) (r t : Nat) : List Byte :=
  (List.range s.cfg.nSeg).flatMap (fun k =>
    if s.cfg.nSeg - 1 - k = t then [BitVec.ofNat 8 r, rawByte s (r - 1) t] else [0x00, s.cfg.noopData])

/-- The frames of ENC_REFRESH (R124): row registers 1..8, and within a row targets 0..N_SEG−1. -/
def refreshPlan (s : State) : List (Sequencer × List Byte) :=
  (List.range' 1 8).flatMap (fun r =>
    (List.range s.cfg.nSeg).map (fun t => (.refresh r t, refreshFrame s r t)))

/-- ENC_REFRESH (R124): every frame is built from the state the command starts in (R169). -/
def execEncRefresh (s : State) : Host.Outcome State Fault Refusal :=
  finishTransmit (transmitAll (refreshPlan s) s)

end Sys2Proof.Machine
end

