-- ==== Sys2Proof/Machine/FrameBuffer.lean ====
section
/-! DEFINITION. The frame-buffer commands (40_framebuffer.md). -/

namespace Sys2Proof.Machine

/-- CONSTRUCT (R80): the checks precede the writes, INVALID_ARGUMENT first (R142). -/
def execConstruct (w : Nat) (s : State) : Host.Outcome State Fault Refusal :=
  if w % 8 ≠ 0 then .next (raise .invalidArgument s)
  else if w / 8 > s.cfg.sMax then .next (raise .capacity s)
  else .next (respond 0 (zeroSegments 0 (w / 8) { s with segCount := w / 8 }))

/-- GET_PIXEL (R82). -/
def execGetPixel (x y : Nat) (s : State) : Host.Outcome State Fault Refusal :=
  .next (respond (pixelData (pixel s x y)) s)

/-- Write pixel (x, y) in a row that exists; nothing if y ≥ 8 (the last lines of R84 and R86). -/
def writePixel (x y : Nat) (v : Bool) (s : State) : State :=
  if y < 8 then memWrite s y (segOf x) (setBit (memRead s y (segOf x)) (bitOf x) v) else s

/-- SET_PIXEL (R84): no effect out of bounds, never grows (R85). -/
def execSetPixel (x y : Nat) (v : Bool) (s : State) : Host.Outcome State Fault Refusal :=
  .next (respond 0 (if inBounds s x y then writePixel x y v s else s))

/-- Growth to exactly the segments column x needs: the new bytes are zeroed, then `S` rises (R86). -/
def growTo (x : Nat) (s : State) : State :=
  { zeroSegments s.segCount (segOf x + 1) s with segCount := segOf x + 1 }

/-- SET_PIXEL_EXP (R86): grow on x alone if the segment is not there (C2, D8), then write the pixel. -/
def execSetPixelExp (x y : Nat) (v : Bool) (s : State) : Host.Outcome State Fault Refusal :=
  if segOf x < s.segCount then .next (respond 0 (writePixel x y v s))
  else if segOf x + 1 > s.cfg.sMax then .next (raise .capacity s)
  else .next (respond 0 (writePixel x y v (growTo x s)))

/-- GET_COLUMN (R88). -/
def execGetColumn (x : Nat) (s : State) : Host.Outcome State Fault Refusal :=
  .next (respond ((columnByte s x).setWidth 16) s)

/-- The inner loop of R90 on row y, over segments n−1 down to 0: each byte moves right by one bit, `carry` enters at
bit 7 and bit 0 goes on to the segment on its left. The last carry leaves the row. -/
def shiftRow (y : Nat) : Nat → Bool → State → State × Bool
  | 0, carry, s => (s, carry)
  | n + 1, carry, s =>
    let old := memRead s y n
    shiftRow y n (old.getLsbD 0) (memWrite s y n ((old >>> 1) ||| bitAt carry 7))

/-- The outer loop of R90 over rows 0..n−1: the state after it and the outgoing column byte. -/
def shiftRows (c : Byte) : Nat → State → State × Byte
  | 0, s => (s, 0)
  | n + 1, s =>
    let before := shiftRows c n s
    let row := shiftRow n s.segCount (c.getLsbD n) before.1
    (row.1, before.2 ||| bitAt row.2 n)

/-- SHIFT_LEFT (R90). -/
def execShiftLeft (c : Byte) (s : State) : Host.Outcome State Fault Refusal :=
  .next (respond ((shiftRows c 8 s).2.setWidth 16) (shiftRows c 8 s).1)

/-- RAW_READ (R93). -/
def execRawRead (y seg : Nat) (s : State) : Host.Outcome State Fault Refusal :=
  .next (respond ((rawByte s y seg).setWidth 16) s)

/-- CLEAR (R94): every visible byte 0x00, `S` kept (C3). -/
def execClear (s : State) : Host.Outcome State Fault Refusal :=
  .next (respond 0 (zeroSegments 0 s.segCount s))

/-- READ_SEGCOUNT (R95). -/
def execReadSegcount (s : State) : Host.Outcome State Fault Refusal :=
  .next (respond (BitVec.ofNat 16 s.segCount) s)

end Sys2Proof.Machine
end

