-- ==== Sys2Proof/Machine/Dispatch.lean ====
section
/-! DEFINITION. One arm per command of R64. -/

namespace Sys2Proof.Machine

-- The effect of an accepted command.
def exec (i : Instr) (s : State) : Host.Outcome State Fault Refusal :=
  match i with
  | .construct w => Sys2Proof.Machine.execConstruct w s
  | .getPixel x y => Sys2Proof.Machine.execGetPixel x y s
  | .setPixel x y v => Sys2Proof.Machine.execSetPixel x y v s
  | .setPixelExp x y v => Sys2Proof.Machine.execSetPixelExp x y v s
  | .getColumn x => Sys2Proof.Machine.execGetColumn x s
  | .shiftLeft c => Sys2Proof.Machine.execShiftLeft c s
  | .rawRead y seg => Sys2Proof.Machine.execRawRead y seg s
  | .clear => Sys2Proof.Machine.execClear s
  | .encInit => Sys2Proof.Machine.execEncInit s
  | .encRefresh => Sys2Proof.Machine.execEncRefresh s
  | .readSegcount => Sys2Proof.Machine.execReadSegcount s

end Sys2Proof.Machine
end

