-- ==== Sys2Proof/Machine/Events.lean ====
section
/-! DEFINITION. What one event of the host does: a command word, `rst`, or a command cut off by `rst`. -/

namespace Sys2Proof.Machine

/-- An accepted word: the command it selects runs, or it ends with ILLEGAL (R69, R70, R142). -/
def runWord (w : Word) (s : State) : Host.Outcome State Fault Refusal :=
  match decode w with
  | .ok i => exec i s
  | .error _ => .next (raise .illegal s)

/-- The frames a command would hand to the transport; only the encoder commands have any (R49, R165). -/
def planOf (i : Instr) (s : State) : List (Sequencer × List Byte) :=
  match i with
  | .encInit => initPlan s.cfg
  | .encRefresh => refreshPlan s
  | .construct _ => []
  | .getPixel _ _ => []
  | .setPixel _ _ _ => []
  | .setPixelExp _ _ _ => []
  | .getColumn _ => []
  | .shiftLeft _ => []
  | .rawRead _ _ => []
  | .clear => []
  | .readSegcount => []

/-- The frames an accepted word would hand to the transport; an illegal word none (R69). -/
def planOfWord (w : Word) (s : State) : List (Sequencer × List Byte) :=
  match decode w with
  | .ok i => planOf i s
  | .error _ => []

/-- A word accepted and then cut off by `rst` after `k` answered transactions (R161). No response is produced. -/
def cutWord (w : Word) (k : Nat) (s : State) : State :=
  hardReset (transmitUntilCut k (planOfWord w s) s)

/-- One event. A word is accepted only when `cmd_ready` = 1 (R65); `rst` always acts (R147, R160). -/
def stepEvent (e : HostEvent) (rest : List HostEvent) (s : State) : Host.Outcome State Fault Refusal :=
  match e with
  | .command w => if cmdReady s then runWord w (accept { s with hostIn := rest }) else .next s
  | .rst => .next (hardReset { s with hostIn := rest })
  | .commandCutByRst w k =>
    if cmdReady s then .next (cutWord w k (accept { s with hostIn := rest }))
    else .next (hardReset { s with hostIn := rest })

/-- With no event from the host nothing runs (R20). Parameters outside R8's bounds have no model (U9). -/
def stepHost (s : State) : Host.Outcome State Fault Refusal :=
  if s.cfg.Legal then
    match s.hostIn with
    | [] => .next s
    | e :: rest => stepEvent e rest s
  else .refused .illegalConfiguration

/-- The host presents word `w` next, to a DCFB that is ready for it (R65). -/
def presentWord (w : Word) (s : State) : State :=
  { s with hostIn := .command w :: s.hostIn, busy := false }

end Sys2Proof.Machine
end

