-- ==== Sys2Proof/Machine/Step.lean ====
section
/-! DEFINITION. One step: the next event of the host, a whole command being one step (R47, R170). -/

namespace Sys2Proof.Machine

/-- One step of DCFB. -/
def step (s : State) : Host.Outcome State Fault Refusal := stepHost s

/-- `s` with the table word standing where `step` takes its next command: first among the host's pending events, BUSY
being 0 so that it is accepted (log entry 4). -/
def State.withFetchWord (s : State) (nbits w : Nat) : State := presentWord (wordOfTable nbits w) s

end Sys2Proof.Machine
end

