-- ==== Sys2Proof/Machine/Assembler.lean ====
section
/-! DEFINITION. The assembler syntax of R72 and the pseudo-instructions of R73: one command per line, a mnemonic and
comma-separated unsigned decimal or 0x-hex operands. -/

namespace Sys2Proof.Machine

/-- The command, if every operand fits its field; else an assembly error (R72). -/
def fitted (i : Instr) : Option Instr := if i.wellFormed then some i else none

/-- A pixel value operand, V ∈ 0, 1 (R72). -/
def pixelOperand : Nat → Option Bool
  | 0 => some false
  | 1 => some true
  | _ => none

/-- A byte operand, B ≤ 255 (R72). -/
def byteOperand (b : Nat) : Option Byte := if b < 256 then some (BitVec.ofNat 8 b) else none

/-- `setpx X, Y, V`, which `put`, `on` and `off` expand to (R72, R73). -/
def assembleSetpx (x y v : Nat) : Option Instr := (pixelOperand v).bind (fun on => fitted (.setPixel x y on))

/-- The command of a mnemonic and its operands (R72, R73); none for any other line. -/
def assemble (mnemonic : String) (operands : List Nat) : Option Instr :=
  match operands with
  | [] =>
    if mnemonic = "clear" then some .clear
    else if mnemonic = "enc.init" then some .encInit
    else if mnemonic = "enc.refresh" then some .encRefresh
    else if mnemonic = "segcnt" then some .readSegcount
    else none
  | [a] =>
    if mnemonic = "construct" then fitted (.construct a)
    else if mnemonic = "getcol" then fitted (.getColumn a)
    else if mnemonic = "shl" then (byteOperand a).bind (fun c => fitted (.shiftLeft c))
    else none
  | [a, b] =>
    if mnemonic = "getpx" then fitted (.getPixel a b)
    else if mnemonic = "raw" then fitted (.rawRead a b)
    else if mnemonic = "on" then assembleSetpx a b 1
    else if mnemonic = "off" then assembleSetpx a b 0
    else none
  | [a, b, v] =>
    if mnemonic = "setpx" then assembleSetpx a b v
    else if mnemonic = "put" then assembleSetpx a b v
    else if mnemonic = "setpxe" then (pixelOperand v).bind (fun on => fitted (.setPixelExp a b on))
    else none
  | _ => none

/-- The value of a digit in a base up to 16. -/
def digitValue (base : Nat) (ch : Char) : Option Nat :=
  let n := ch.toNat
  let v := if 48 ≤ n ∧ n ≤ 57 then n - 48 else if 97 ≤ n ∧ n ≤ 102 then n - 87 else if 65 ≤ n ∧ n ≤ 70 then n - 55 else 16
  if v < base then some v else none

/-- The value of digits in a base, the most significant first, after `acc`. -/
def digitsValue (base : Nat) : List Char → Nat → Option Nat
  | [], acc => some acc
  | ch :: rest, acc => (digitValue base ch).bind (fun v => digitsValue base rest (acc * base + v))

/-- An unsigned decimal or 0x-hex operand (R72). -/
def numeral : List Char → Option Nat
  | [] => none
  | ['0', 'x'] => none
  | '0' :: 'x' :: digits => digitsValue 16 digits 0
  | digits => digitsValue 10 digits 0

/-- The fields of a line between commas. -/
def splitCommas : List Char → List (List Char)
  | [] => [[]]
  | ch :: rest =>
    if ch = ',' then [] :: splitCommas rest
    else match splitCommas rest with
      | [] => [[ch]]
      | field :: fields => (ch :: field) :: fields

/-- Every operand of a line read, or none. -/
def numerals : List (List Char) → Option (List Nat)
  | [] => some []
  | f :: rest => (numeral f).bind (fun n => (numerals rest).map (fun ns => n :: ns))

/-- Characters without the blanks before and after them. -/
def trimBlanks (cs : List Char) : List Char :=
  ((cs.dropWhile (fun ch => ch = ' ')).reverse.dropWhile (fun ch => ch = ' ')).reverse

/-- One line of assembly (R72). DESIGN CHOICE, log entry 16: blanks before the mnemonic do not count, the mnemonic ends at
the first blank after it, and blanks before and after each operand do not count. A blank inside an operand is no digit, so
that the line is an error. -/
def assembleLine (line : List Char) : Option Instr :=
  let body := line.dropWhile (fun ch => ch = ' ')
  let mnemonic := body.takeWhile (fun ch => ch ≠ ' ')
  let rest := trimBlanks (body.dropWhile (fun ch => ch ≠ ' '))
  (if rest = [] then some [] else numerals ((splitCommas rest).map trimBlanks)).bind (fun ops => assemble (String.ofList mnemonic) ops)

/-- The word of one line of assembly. -/
def assembleWord (line : List Char) : Option Word := (assembleLine line).map encode

end Sys2Proof.Machine
end

