-- ==== Sys2Proof/Machine/Debug.lean ====
section
/-! DEFINITION. Observations, pure functions of the state: the debug dump (R152), a transaction on the transport port (R67). -/

namespace Sys2Proof.Machine

/-- One row of the dump: a character per column, left to right, then a line feed (R152, D19). -/
def dumpRow (s : State) (y : Nat) : List Char :=
  (List.range (8 * s.segCount)).map (fun x => if pixel s x y then 'X' else '-') ++ ['\n']

/-- `DebugDump(S, B)` (R152): rows 0 to 7. -/
def debugDump (s : State) : List Char := (List.range 8).flatMap (dumpRow s)

/-- A transaction as `tx_data` and `tx_last` carry it: its bytes in order, the last one flagged (R67). -/
def txBeats : List Byte → List (Byte × Bool)
  | [] => []
  | [b] => [(b, true)]
  | b :: rest => (b, false) :: txBeats rest

end Sys2Proof.Machine
end

