-- ==== Sys2Proof/Safety.lean ====
section
/-! DEFINITION. What counts as a sound state of DCFB, and the terms the statements are written in. -/

namespace Sys2Proof.Machine

/-- What every state of a running DCFB satisfies between steps: `B` in its canonical form and inside the storage (R21),
`S` within the capacity (R23), a status of R140 with data 0 unless it is OK (R141), BUSY 0 and the sequencer idle (R26,
R27). -/
structure Inv (s : State) : Prop where
  mem_wf : s.mem.wf = true
  mem_in_storage : ∀ cell ∈ s.mem, cell.1 < 8 * s.cfg.sMax
  seg_le : s.segCount ≤ s.cfg.sMax
  status_known : s.rspStatus.toNat ≤ 4
  data_of_error : s.rspStatus ≠ 0 → s.rspData = 0
  not_busy : s.busy = false
  seq_idle : s.seq = .idle

/-- The two states differ at most in `mem`, and there only in bytes at segments ≥ `S`, which are not part of the buffer
(R21). -/
structure SameVisible (s t : State) : Prop where
  rest : { t with mem := s.mem } = s
  bytes : ∀ y seg, y < 8 → seg < s.segCount → memRead t y seg = memRead s y seg

/-- `a` is the address of a visible byte (R21). -/
def VisibleAddr (s : State) (a : Nat) : Prop := ∃ y seg, y < 8 ∧ seg < s.segCount ∧ a = cellAddr s.cfg y seg

/-- `s` with a finished response: the only change a command that reads makes (R48). -/
def withResponse (st : BitVec 3) (d : Data) (s : State) : State :=
  { s with rspStatus := st, rspData := d, rspValid := true, busy := false }

/-- A ready DCFB with word `w` presented next (R65): legal parameters, BUSY 0. -/
abbrev Ready (s : State) (w : Word) (later : List HostEvent) : Prop :=
  s.cfg.Legal ∧ s.busy = false ∧ s.hostIn = .command w :: later

/-- The words R69 calls illegal, by their fields (R60, R63): a reserved `op`, or a must-be-zero field that is not. -/
abbrev IllegalFields (w : Word) : Prop :=
  (opField w).toNat = 0 ∨ 12 ≤ (opField w).toNat
    ∨ (((opField w).toNat = 1 ∨ (opField w).toNat = 5) ∧ (yField w ≠ 0 ∨ bField w ≠ 0))
    ∨ (((opField w).toNat = 2 ∨ (opField w).toNat = 7) ∧ bField w ≠ 0)
    ∨ (((opField w).toNat = 3 ∨ (opField w).toNat = 4) ∧ 2 ≤ (bField w).toNat)
    ∨ ((opField w).toNat = 6 ∧ (yField w ≠ 0 ∨ xField w ≠ 0))
    ∨ ((8 ≤ (opField w).toNat ∧ (opField w).toNat ≤ 11) ∧ (yField w ≠ 0 ∨ bField w ≠ 0 ∨ xField w ≠ 0))

/-- The four broadcast writes of ENC_INIT (R122): each 2-byte command repeated N_SEG times. -/
def initFrames (c : Config) : List (List Byte) :=
  [ (List.replicate c.nSeg [0x0F, c.initTest]).flatten,
    (List.replicate c.nSeg [0x0C, c.initShutdown]).flatten,
    (List.replicate c.nSeg [0x0A, c.initIntensity]).flatten,
    (List.replicate c.nSeg [0x0B, c.initScanLimit]).flatten ]

/-- The commands given run one after another, each from the state the one before it left (R50). -/
def execAll : List Instr → State → Host.Outcome State Fault Refusal
  | [], s => .next s
  | i :: rest, s =>
    match exec i s with
    | .next s' => execAll rest s'
    | .fault r => .fault r
    | .refused r => .refused r

/-- One pair of the rotation law: GET_COLUMN of column 0, then SHIFT_LEFT of the byte its response holds (R92). -/
def rotateOnce (s : State) : Host.Outcome State Fault Refusal :=
  match exec (.getColumn 0) s with
  | .next s' => exec (.shiftLeft (s'.rspData.setWidth 8)) s'
  | .fault r => .fault r
  | .refused r => .refused r

/-- The pair repeated `n` times. -/
def rotateTimes : Nat → State → Host.Outcome State Fault Refusal
  | 0, s => .next s
  | n + 1, s =>
    match rotateOnce s with
    | .next s' => rotateTimes n s'
    | .fault r => .fault r
    | .refused r => .refused r

end Sys2Proof.Machine
end

