-- ==== Sys2Proof/Certificates/Slice0/Obligations.lean ====
section
/-! DEFINITION. The statements for the provers. `withResponse st d s` is `s` with `RSP_STATUS` = st, `RSP_DATA` = d,
`rsp_valid` = 1 and `BUSY` = 0 and everything else as in `s`, so an equation with it states the whole frame too: the model's
own fields (log entries 1, 4, 5, 7) are part of that frame. -/

open Sys2Proof Sys2Proof.Machine

/-! ### Encoding -/

/-- The example words of 40_framebuffer.md and 45_row_encoder.md decode to the commands they stand for. -/
def Obligations.DecodesTheExampleWords : Prop :=
  decode 0x10000010 = .ok (.construct 16) ∧
  decode 0x2A000009 = .ok (.getPixel 9 10) ∧
  decode 0x32010009 = .ok (.setPixel 9 2 true) ∧
  decode 0x43010014 = .ok (.setPixelExp 20 3 true) ∧
  decode 0x50000008 = .ok (.getColumn 8) ∧
  decode 0x60200000 = .ok (.shiftLeft 0x20) ∧
  decode 0x72000001 = .ok (.rawRead 2 1) ∧
  decode 0x80000000 = .ok .clear ∧
  decode 0x90000000 = .ok .encInit ∧
  decode 0xA0000000 = .ok .encRefresh ∧
  decode 0xB0000000 = .ok .readSegcount

/-- Decoding the word of a well-formed command gives the command back, at every operand its fields admit (R60, R64). -/
def Obligations.DecodeOfEncodeGivesTheCommand : Prop :=
  ∀ i : Instr, i.wellFormed = true → decode (encode i) = .ok i

/-- A word that decodes is the word of the command it decodes to, whose operands fit: no two words mean one command. -/
def Obligations.EncodeOfDecodeGivesTheWord : Prop :=
  ∀ (w : Word) (i : Instr), decode w = .ok i → i.wellFormed = true ∧ encode i = w

/-- R69: exactly the words with a reserved opcode or a must-be-zero field that is not zero select no command; such a word
ends with ILLEGAL (status 1, data 0) and changes nothing but the response registers (and the pending input it was). -/
def Obligations.IllegalWordsEndIllegalAndChangeNothing : Prop :=
  ∀ (s : State) (w : Word) (later : List HostEvent), Ready s w later →
    (IllegalFields w → step s = .next (withResponse 1 0 { s with hostIn := later })) ∧
    (¬IllegalFields w → ∃ i, decode w = .ok i)

/-! ### The step -/

/-- A ready DCFB accepts the pending word and runs the command it decodes to, with BUSY 1 and the old response gone
(R26, R65, R66); `withFetchWord` places a word where that happens. -/
def Obligations.StepRunsTheDecodedCommand : Prop :=
  (∀ (s : State) (w : Word) (later : List HostEvent) (i : Instr), Ready s w later → decode w = .ok i →
    step s = exec i { s with hostIn := later, busy := true, rspValid := false }) ∧
  (∀ (s : State) (w : Word) (i : Instr), s.cfg.Legal → decode w = .ok i →
    step (s.withFetchWord 32 w.toNat) = exec i { s with busy := true, rspValid := false })

/-- While BUSY is 1 no command is accepted: the word stays pending and nothing changes (R65; the waiting step is the
model's, log entry 11). -/
def Obligations.BusyAcceptsNoCommand : Prop :=
  ∀ (s : State) (w : Word) (later : List HostEvent), s.cfg.Legal → s.busy = true →
    s.hostIn = .command w :: later → step s = .next s

/-- With nothing from the host nothing runs (R20); the idle step is the model's (log entry 4). -/
def Obligations.NothingRunsWithoutTheHost : Prop :=
  ∀ s : State, s.cfg.Legal → s.hostIn = [] → step s = .next s

/-- Parameters outside R8's bounds have no model (U9). -/
def Obligations.IllegalConfigurationIsRefused : Prop :=
  ∀ s : State, ¬(1 ≤ s.cfg.sMax ∧ s.cfg.sMax ≤ 8192 ∧ 1 ≤ s.cfg.nSeg ∧ s.cfg.nSeg ≤ s.cfg.sMax ∧ s.cfg.nSeg ≤ 8191) →
    step s = .refused .illegalConfiguration

/-- R160, R30: `rst` gives every register its reset value, busy or not, and accepts no command. Parameters, pending
inputs and the stream already sent are as before: these are the model's own fields, and that `rst` keeps them is the
model's choice (log entries 1, 4, 5, 7). -/
def Obligations.ResetGivesTheResetValues : Prop :=
  ∀ (s : State) (later : List HostEvent), s.cfg.Legal → s.hostIn = .rst :: later →
    ∃ t, step s = .next t ∧ t.segCount = 0 ∧ t.rspStatus = 0 ∧ t.rspData = 0 ∧ t.rspValid = false ∧ t.busy = false ∧
      t.seq = .idle ∧ t.cfg = s.cfg ∧ t.hostIn = later ∧ t.txScript = s.txScript ∧ t.txRest = s.txRest ∧
      t.txLog = s.txLog

/-- A reset asserted while a command runs abandons it. No response is produced and a transaction in progress is cut short
(R161), the registers have their reset values (R160, R30), and the stream has grown by some of the command's frames in
order, none after one that was not answered OK (R121), the last of them possibly cut short; if its first k transactions
are answered OK, exactly those and the cut one. Parameters, pending inputs and the stream already sent are as before, and
`txRest` too: these are the model's own fields, and that a reset keeps them is the model's choice (log entries 1, 4, 5, 7).
The clauses on the stream, that transaction k is begun and recorded as cut, are the model's choice too (log entries 7 and
12). -/
def Obligations.ResetDuringCommandAbandonsIt : Prop :=
  ∀ (s : State) (w : Word) (k : Nat) (later : List HostEvent), s.cfg.Legal → s.busy = false →
    s.hostIn = .commandCutByRst w k :: later →
    ∃ t sent, step s = .next t ∧ t.segCount = 0 ∧ t.rspStatus = 0 ∧ t.rspData = 0 ∧ t.rspValid = false ∧
      t.busy = false ∧ t.seq = .idle ∧ t.cfg = s.cfg ∧ t.hostIn = later ∧ t.txRest = s.txRest ∧
      t.txLog = s.txLog ++ sent ∧
      (∃ n, n ≤ k + 1 ∧ sent.map TxRecord.bytes = ((planOfWord w s).map Prod.snd).take n) ∧
      (∀ n, n + 1 < sent.length → ∀ rec, sent[n]? = some rec → rec.ended = .ok) ∧
      ((∀ n < k, answerAt s n = .ok) → ∀ frame, (planOfWord w s)[k]? = some frame →
        sent = ((planOfWord w s).take k).map (fun f => ⟨f.2, .ok⟩) ++ [⟨frame.2, .cut⟩])

/-- The machine right after reset holds R30's values, whatever its parameters; its buffer has no visible byte. That
`State.reset` has the parameters of `Config.default` is the model's choice (log entries 1 and 2). -/
def Obligations.ResetStateHoldsTheResetValues : Prop :=
  State.reset = State.resetWith Config.default ∧
  ∀ c : Config, (State.resetWith c).cfg = c ∧ (State.resetWith c).segCount = 0 ∧
    (∀ a, ¬VisibleAddr (State.resetWith c) a) ∧
    (State.resetWith c).rspStatus = 0 ∧ (State.resetWith c).rspData = 0 ∧ (State.resetWith c).rspValid = false ∧
    (State.resetWith c).busy = false ∧ (State.resetWith c).seq = .idle

/-- The invariant holds right after reset, whatever the parameters; the parameters of `State.reset` are legal ones. -/
def Obligations.InvariantHoldsAtReset : Prop :=
  Config.default.Legal ∧ ∀ c : Config, Inv (State.resetWith c)

/-! ### The whole machine -/

/-- Every step keeps the invariant: `B` in canonical form and inside the storage, S ≤ S_MAX, a status of R140 with data 0
unless OK, BUSY 0 and the sequencer idle between steps. -/
def Obligations.EveryStepKeepsTheInvariant : Prop :=
  ∀ s t : State, Inv s → step s = .next t → Inv t

/-- R164: no step changes the parameters. -/
def Obligations.ParametersNeverChange : Prop :=
  ∀ s t : State, step s = .next t → t.cfg = s.cfg

/-- The observed stream only grows at its end (R52). -/
def Obligations.TransactionsAreOnlyAppended : Prop :=
  ∀ s t : State, step s = .next t → ∃ sent, t.txLog = s.txLog ++ sent

/-- R23, R24: only CONSTRUCT and SET_PIXEL_EXP change `S`, and only CONSTRUCT lowers it. -/
def Obligations.SegmentCountIsWrittenByTwoCommands : Prop :=
  ∀ (i : Instr) (s t : State), exec i s = .next t →
    (t.segCount ≠ s.segCount → (∃ w, i = .construct w) ∨ (∃ x y v, i = .setPixelExp x y v)) ∧
    ((∀ w, i ≠ .construct w) → s.segCount ≤ t.segCount)

/-- R141: a command that ends with an error, an illegal word included, has changed neither `B` nor `S` and has data 0. It
has sent nothing unless the error is IO_ERROR, and then what it sent stays sent. -/
def Obligations.ErrorsChangeNeitherBufferNorWidth : Prop :=
  ∀ (s t : State) (w : Word) (later : List HostEvent), Ready s w later → step s = .next t → t.rspStatus ≠ 0 →
    t.mem = s.mem ∧ t.segCount = s.segCount ∧ t.rspData = 0 ∧ (t.rspStatus ≠ 4 → t.txLog = s.txLog) ∧
    ∃ sent, t.txLog = s.txLog ++ sent

/-- R140: every command ends with one status, a valid response and BUSY 0, and each status other than OK has its cause: 1
the word selects no command, 2 a CONSTRUCT width that is no multiple of 8, 3 a width or a growth beyond S_MAX, 4 an encoder
transaction answered FAIL; RSP_DATA is then 0. -/
def Obligations.StatusesByCommand : Prop :=
  ∀ (s t : State) (w : Word) (later : List HostEvent), Ready s w later → step s = .next t →
    t.rspValid = true ∧ t.busy = false ∧ (t.rspStatus ≠ 0 → t.rspData = 0) ∧
    (t.rspStatus = 0 ∧ (∃ i, decode w = .ok i) ∨
     t.rspStatus = 1 ∧ (∃ e, decode w = .error e) ∨
     t.rspStatus = 2 ∧ (∃ n, decode w = .ok (.construct n) ∧ n % 8 ≠ 0) ∨
     t.rspStatus = 3 ∧ ((∃ n, decode w = .ok (.construct n) ∧ s.cfg.sMax < n / 8) ∨
       ∃ x y v, decode w = .ok (.setPixelExp x y v) ∧ s.cfg.sMax < x / 8 + 1) ∨
     t.rspStatus = 4 ∧ (decode w = .ok .encInit ∨ decode w = .ok .encRefresh) ∧
       ∃ n, n < (planOfWord w s).length ∧ (∀ m, m < n → answerAt s m = .ok) ∧ answerAt s n = .fail)

/-- R165: only the encoder commands send anything, and they change neither `B` nor `S`. -/
def Obligations.OnlyTheEncoderTransmits : Prop :=
  ∀ (i : Instr) (s t : State), exec i s = .next t →
    (i ≠ .encInit → i ≠ .encRefresh → t.txLog = s.txLog ∧ t.txScript = s.txScript ∧ t.seq = s.seq) ∧
    (i = .encInit ∨ i = .encRefresh → t.mem = s.mem ∧ t.segCount = s.segCount) ∧
    t.txRest = s.txRest ∧ t.hostIn = s.hostIn

/-- Every command but the two of the encoder completes, in every state and at every operand (R45, R144, R148). -/
def Obligations.BufferCommandsAlwaysComplete : Prop :=
  ∀ (i : Instr) (s : State), i ≠ .encInit → i ≠ .encRefresh → ∃ t, exec i s = .next t

/-- R25: the response registers hold their values until the next command completes, or `rst` clears them. -/
def Obligations.ResponseHoldsUntilTheNextCommand : Prop :=
  ∀ s t : State, step s = .next t →
    (t.rspStatus = s.rspStatus ∧ t.rspData = s.rspData ∧ t.rspValid = s.rspValid) ∨
    (∃ w later, Ready s w later ∧ t.rspValid = true) ∨
    ((∃ later, s.hostIn = .rst :: later ∨ ∃ w k, s.hostIn = .commandCutByRst w k :: later) ∧
      t.rspStatus = 0 ∧ t.rspData = 0 ∧ t.rspValid = false)

/-- R25, R146: no command reads the response registers, so no status is sticky: whatever they hold, a command does the
same. -/
def Obligations.NoStatusIsSticky : Prop :=
  ∀ (i : Instr) (s : State) (st : BitVec 3) (d : Data) (valid : Bool),
    exec i { s with rspStatus := st, rspData := d, rspValid := valid } = exec i s

/-- R21: bytes at segments ≥ S are never observed. Two states that differ only there do the same at every command, and
still differ only there after it. -/
def Obligations.InvisibleStorageIsNeverObserved : Prop :=
  ∀ (i : Instr) (s s' : State), s.segCount ≤ s.cfg.sMax → SameVisible s s' →
    (∀ t, exec i s = .next t → ∃ t', exec i s' = .next t' ∧ SameVisible t t') ∧
    (∀ r, exec i s = .fault r → exec i s' = .fault r)

/-- R48: GET_PIXEL, GET_COLUMN, RAW_READ and READ_SEGCOUNT change nothing but the response registers, and repeating one
gives the same result. -/
def Obligations.ReadsHaveNoSideEffects : Prop :=
  ∀ (i : Instr) (s : State),
    ((∃ x y, i = .getPixel x y) ∨ (∃ x, i = .getColumn x) ∨ (∃ y seg, i = .rawRead y seg) ∨ i = .readSegcount) →
    ∃ d, exec i s = .next (withResponse 0 d s) ∧
      exec i (withResponse 0 d s) = .next (withResponse 0 d s)

/-! ### The frame-buffer commands -/

/-- R80: CONSTRUCT. A width that is no multiple of 8 ends with INVALID_ARGUMENT, checked first; one beyond S_MAX with
CAPACITY; both change nothing else. Any other gives S = w/8 and every pixel off; bytes that are not visible afterwards
keep what they held, and nothing else changes. -/
def Obligations.ConstructStartsABlankBuffer : Prop :=
  ∀ (w : Nat) (s : State),
    (w < 65536 → decode (packFields 0x1 0 0 (BitVec.ofNat 16 w)) = .ok (.construct w)) ∧
    (w % 8 ≠ 0 → exec (.construct w) s = .next (withResponse 2 0 s)) ∧
    (w % 8 = 0 → s.cfg.sMax < w / 8 → exec (.construct w) s = .next (withResponse 3 0 s)) ∧
    (w % 8 = 0 → w / 8 ≤ s.cfg.sMax →
      ∃ m, exec (.construct w) s = .next (withResponse 0 0 { s with segCount := w / 8, mem := m }) ∧
        (∀ x y, pixel { s with segCount := w / 8, mem := m } x y = false) ∧
        (∀ y seg, y < 8 → seg < w / 8 → m.read (cellAddr s.cfg y seg) = 0x00) ∧
        (∀ a, ¬VisibleAddr { s with segCount := w / 8 } a → m.read a = s.mem.read a))

/-- R82, R40: GET_PIXEL answers bit x mod 8 of byte (y, x div 8), and 0 outside the bounds. -/
def Obligations.GetPixelAnswersThePixel : Prop :=
  ∀ (x y : Nat) (s : State),
    (x < 65536 → y < 16 → decode (packFields 0x2 (BitVec.ofNat 4 y) 0 (BitVec.ofNat 16 x)) = .ok (.getPixel x y)) ∧
    exec (.getPixel x y) s = .next (withResponse 0
      (if y < 8 ∧ x < 8 * s.segCount ∧ (s.mem.read (cellAddr s.cfg y (x / 8))).getLsbD (x % 8) = true
        then 0x0001 else 0x0000) s)

/-- R84: in bounds SET_PIXEL writes its bit, keeps the seven others and every other byte, and keeps S; out of bounds it
changes nothing. -/
def Obligations.SetPixelWritesOneBit : Prop :=
  ∀ (x y : Nat) (v : Bool) (s : State),
    (x < 65536 → y < 16 → decode (packFields 0x3 (BitVec.ofNat 4 y) (if v then 1 else 0) (BitVec.ofNat 16 x))
      = .ok (.setPixel x y v)) ∧
    (y < 8 → x < 8 * s.segCount →
      ∃ m, exec (.setPixel x y v) s = .next (withResponse 0 0 { s with mem := m }) ∧
        (∀ i, i < 8 → (m.read (cellAddr s.cfg y (x / 8))).getLsbD i
          = if i = x % 8 then v else (s.mem.read (cellAddr s.cfg y (x / 8))).getLsbD i) ∧
        (∀ a, a ≠ cellAddr s.cfg y (x / 8) → m.read a = s.mem.read a)) ∧
    (¬(y < 8 ∧ x < 8 * s.segCount) → exec (.setPixel x y v) s = .next (withResponse 0 0 s))

/-- After SET_PIXEL in bounds the pixel has its new value and every other pixel its old one (R84, R40). -/
def Obligations.SetPixelChangesOnlyItsPixel : Prop :=
  ∀ (x y : Nat) (v : Bool) (s t : State), s.segCount ≤ s.cfg.sMax → y < 8 → x < 8 * s.segCount →
    exec (.setPixel x y v) s = .next t →
    ∀ x' y', pixel t x' y' = if x' = x ∧ y' = y then v else pixel s x' y'

/-- R86: where the segment of column x exists or fits, SET_PIXEL_EXP ends OK with S = max(S, x div 8 + 1). New pixels are
off, pixel (x, y) has its value if y < 8, every other pixel is kept; every byte but the pixel's and the new ones is
kept, and nothing else changes. Growth beyond S_MAX ends with CAPACITY and changes nothing else. "When x div 8 < S, the
command is exactly SET_PIXEL." -/
def Obligations.SetPixelExpandingGrowsThenWrites : Prop :=
  ∀ (x y : Nat) (v : Bool) (s : State), s.segCount ≤ s.cfg.sMax →
    (x < 65536 → y < 16 → decode (packFields 0x4 (BitVec.ofNat 4 y) (if v then 1 else 0) (BitVec.ofNat 16 x))
      = .ok (.setPixelExp x y v)) ∧
    (x / 8 < s.segCount → exec (.setPixelExp x y v) s = exec (.setPixel x y v) s) ∧
    (s.segCount ≤ x / 8 → s.cfg.sMax < x / 8 + 1 → exec (.setPixelExp x y v) s = .next (withResponse 3 0 s)) ∧
    ((x / 8 < s.segCount ∨ x / 8 + 1 ≤ s.cfg.sMax) →
      ∃ m, exec (.setPixelExp x y v) s
          = .next (withResponse 0 0 { s with segCount := max s.segCount (x / 8 + 1), mem := m }) ∧
        (∀ x' y', pixel { s with segCount := max s.segCount (x / 8 + 1), mem := m } x' y'
          = if x' = x ∧ y' = y ∧ y < 8 then v else pixel s x' y') ∧
        (∀ a, (y < 8 → a ≠ cellAddr s.cfg y (x / 8)) →
          (∀ y' seg, y' < 8 → s.segCount ≤ seg → seg ≤ x / 8 → a ≠ cellAddr s.cfg y' seg) →
          m.read a = s.mem.read a))

/-- R87, the growth law. SET_PIXEL_EXP with status OK leaves S = max(S before, x div 8 + 1). A sequence within the
capacity completes with S = max(S before, ⌈(m + 1)/8⌉), m its largest column, S never decreasing on the way; that is
⌈(m + 1)/8⌉ when the sequence starts with S ≤ ⌈(x₀ + 1)/8⌉, x₀ its first column, as from S = 0. -/
def Obligations.GrowthLaw : Prop :=
  (∀ (x y : Nat) (v : Bool) (s t : State), exec (.setPixelExp x y v) s = .next t → t.rspStatus = 0 →
    t.segCount = max s.segCount (x / 8 + 1)) ∧
  ∀ (writes : List (Nat × Nat × Bool)) (m : Nat) (s : State),
    (∃ p ∈ writes, p.1 = m) → (∀ p ∈ writes, p.1 ≤ m) → m / 8 + 1 ≤ s.cfg.sMax →
    ∃ t, execAll (writes.map (fun p => .setPixelExp p.1 p.2.1 p.2.2)) s = .next t ∧
      t.segCount = max s.segCount ((m + 1 + 7) / 8) ∧
      (∀ p, writes.head? = some p → s.segCount ≤ (p.1 + 1 + 7) / 8 → t.segCount = (m + 1 + 7) / 8) ∧
      (∀ n, ∃ u, execAll ((writes.map (fun p => .setPixelExp p.1 p.2.1 p.2.2)).take n) s = .next u ∧
        s.segCount ≤ u.segCount ∧ u.segCount ≤ t.segCount)

/-- R88: bit i of GET_COLUMN's answer is P(x, i), 0 outside the bounds, and its other bits are 0. -/
def Obligations.GetColumnPacksOneBitPerRow : Prop :=
  ∀ (x : Nat) (s : State),
    (x < 65536 → decode (packFields 0x5 0 0 (BitVec.ofNat 16 x)) = .ok (.getColumn x)) ∧
    ∃ d, exec (.getColumn x) s = .next (withResponse 0 d s) ∧
      (∀ i, i < 8 → d.getLsbD i = pixel s x i) ∧ (∀ i, 8 ≤ i → d.getLsbD i = false)

/-- R90: every pixel takes the one on its right, the last column takes the incoming byte, column 0 is answered; with
S = 0 the incoming byte is answered and nothing changes. S, bytes that are not visible and everything else are kept. -/
def Obligations.ShiftLeftMovesEveryPixel : Prop :=
  ∀ (c : Byte) (s : State), s.segCount ≤ s.cfg.sMax →
    decode (packFields 0x6 0 c 0) = .ok (.shiftLeft c) ∧
    ∃ m d, exec (.shiftLeft c) s = .next (withResponse 0 d { s with mem := m }) ∧
      (∀ i, 8 ≤ i → d.getLsbD i = false) ∧
      (0 < s.segCount → ∀ y, y < 8 →
        d.getLsbD y = pixel s 0 y ∧
        pixel { s with mem := m } (8 * s.segCount - 1) y = c.getLsbD y ∧
        ∀ x, x + 1 < 8 * s.segCount → pixel { s with mem := m } x y = pixel s (x + 1) y) ∧
      (s.segCount = 0 → d = c.setWidth 16 ∧ m = s.mem) ∧
      (∀ a, ¬VisibleAddr s a → m.read a = s.mem.read a)

/-- R92, the rotation law: GET_COLUMN(0) then SHIFT_LEFT of its answer rotates every row left by one pixel and answers
that same byte, and W = 8·S such pairs restore `B` exactly. -/
def Obligations.RotationLaw : Prop :=
  ∀ s : State, s.mem.wf = true → s.segCount ≤ s.cfg.sMax →
    (∃ t u, exec (.getColumn 0) s = .next t ∧ rotateOnce s = .next u ∧ u.rspStatus = 0 ∧ u.rspData = t.rspData ∧
      u.segCount = s.segCount ∧
      (∀ x y, x < 8 * s.segCount → pixel u x y = pixel s ((x + 1) % (8 * s.segCount)) y) ∧
      (s.segCount = 0 → u.mem = s.mem)) ∧
    (∃ t, rotateTimes (8 * s.segCount) s = .next t ∧ t.mem = s.mem ∧ t.segCount = s.segCount)

/-- R93: RAW_READ answers byte (y, seg), or 0x00 out of range, and its bit b is pixel (8·seg + b, y). -/
def Obligations.RawReadAnswersTheByte : Prop :=
  ∀ (y seg : Nat) (s : State),
    (y < 16 → seg < 65536 → decode (packFields 0x7 (BitVec.ofNat 4 y) 0 (BitVec.ofNat 16 seg)) = .ok (.rawRead y seg)) ∧
    ∃ d, exec (.rawRead y seg) s = .next (withResponse 0 d s) ∧
      d = (if y < 8 ∧ seg < s.segCount then s.mem.read (cellAddr s.cfg y seg) else 0x00).setWidth 16 ∧
      (∀ b, b < 8 → d.getLsbD b = pixel s (8 * seg + b) y)

/-- R94: CLEAR zeroes every visible byte, keeps S, every other byte and everything else; it sends nothing. -/
def Obligations.ClearTurnsEveryPixelOff : Prop :=
  decode (packFields 0x8 0 0 0) = .ok .clear ∧
  ∀ s : State, s.segCount ≤ s.cfg.sMax →
    ∃ m, exec .clear s = .next (withResponse 0 0 { s with mem := m }) ∧
      (∀ y seg, y < 8 → seg < s.segCount → m.read (cellAddr s.cfg y seg) = 0x00) ∧
      (∀ x y, pixel { s with mem := m } x y = false) ∧
      (∀ a, ¬VisibleAddr s a → m.read a = s.mem.read a)

/-- R95: READ_SEGCOUNT answers S, which fits. -/
def Obligations.ReadSegcountAnswersTheCount : Prop :=
  decode (packFields 0xB 0 0 0) = .ok .readSegcount ∧
  ∀ s : State, s.segCount ≤ 8192 →
    ∃ d, exec .readSegcount s = .next (withResponse 0 d s) ∧ d.toNat = s.segCount

/-! ### The row encoder -/

/-- R122: with every answer OK, ENC_INIT sends the four broadcast writes in order, each command repeated N_SEG times, and
ends OK; if transaction n is the first not answered OK, and is answered FAIL, it has sent the first n + 1 of them and ends
with IO_ERROR. -/
def Obligations.EncInitSendsFourBroadcasts : Prop :=
  decode (packFields 0x9 0 0 0) = .ok .encInit ∧
  ∀ s : State,
    ((∀ n, n < 4 → answerAt s n = .ok) →
      exec .encInit s = .next (withResponse 0 0 { s with
        seq := .idle, txScript := s.txScript.drop 4,
        txLog := s.txLog ++ (initFrames s.cfg).map (fun f => ⟨f, .ok⟩) })) ∧
    (∀ n frame, (initFrames s.cfg)[n]? = some frame → (∀ m, m < n → answerAt s m = .ok) → answerAt s n = .fail →
      exec .encInit s = .next (withResponse 4 0 { s with
        seq := .idle, txScript := s.txScript.drop (n + 1),
        txLog := s.txLog ++ ((initFrames s.cfg).take n).map (fun f => ⟨f, .ok⟩) ++ [⟨frame, .fail⟩] }))

/-- R124: the frames of ENC_REFRESH are 8·N_SEG, each of 2·N_SEG bytes. Frame (r − 1)·N_SEG + t is frame(r, t): slot k
holds [r, RawByte(r − 1, t)] if N_SEG − 1 − k = t, else [0x00, NOOP_DATA]. With every answer OK all are sent in order and
the command ends OK; if transaction n is the first not answered OK, and is answered FAIL, the first n + 1 are sent and it
ends with IO_ERROR. -/
def Obligations.EncRefreshSendsTheClosedForm : Prop :=
  decode (packFields 0xA 0 0 0) = .ok .encRefresh ∧
  ∀ s : State, ∃ frames : List (List Byte), frames.length = 8 * s.cfg.nSeg ∧
    (∀ r t, 1 ≤ r → r ≤ 8 → t < s.cfg.nSeg →
      ∃ frame, frames[(r - 1) * s.cfg.nSeg + t]? = some frame ∧ frame.length = 2 * s.cfg.nSeg ∧
        ∀ k, k < s.cfg.nSeg →
          frame[2 * k]? = some (if s.cfg.nSeg - 1 - k = t then BitVec.ofNat 8 r else 0x00) ∧
          frame[2 * k + 1]? = some (if s.cfg.nSeg - 1 - k = t
            then (if t < s.segCount then s.mem.read (cellAddr s.cfg (r - 1) t) else 0x00)
            else s.cfg.noopData)) ∧
    ((∀ n, n < 8 * s.cfg.nSeg → answerAt s n = .ok) →
      exec .encRefresh s = .next (withResponse 0 0 { s with
        seq := .idle, txScript := s.txScript.drop (8 * s.cfg.nSeg),
        txLog := s.txLog ++ frames.map (fun f => ⟨f, .ok⟩) })) ∧
    (∀ n frame, frames[n]? = some frame → (∀ m, m < n → answerAt s m = .ok) → answerAt s n = .fail →
      exec .encRefresh s = .next (withResponse 4 0 { s with
        seq := .idle, txScript := s.txScript.drop (n + 1),
        txLog := s.txLog ++ (frames.take n).map (fun f => ⟨f, .ok⟩) ++ [⟨frame, .fail⟩] }))

/-- R126, the counts of a refresh that ends OK: 16·N_SEG² bytes in all, and of its 8·N_SEG² commands 8·N_SEG carry data
(their register address is not 0x00). -/
def Obligations.RefreshCounts : Prop :=
  ∀ s t : State, exec .encRefresh s = .next t → t.rspStatus = 0 →
    ∃ sent, t.txLog = s.txLog ++ sent ∧ sent.length = 8 * s.cfg.nSeg ∧
      (sent.map (fun rec => rec.bytes.length)).sum = 16 * (s.cfg.nSeg * s.cfg.nSeg) ∧
      (sent.map (fun rec => (List.range s.cfg.nSeg).countP (fun k => rec.bytes[2 * k]? != some 0x00))).sum
        = 8 * s.cfg.nSeg

/-- R121: an encoder command whose transaction n is the first not answered OK, and is answered FAIL, ends with
IO_ERROR having sent exactly n + 1 transactions, the last of them failed; nothing else changes. -/
def Obligations.EncoderStopsAtTheFirstFailure : Prop :=
  ∀ (i : Instr) (s : State) (n : Nat) (frame : Sequencer × List Byte), (i = .encInit ∨ i = .encRefresh) →
    (planOf i s)[n]? = some frame → (∀ m, m < n → answerAt s m = .ok) → answerAt s n = .fail →
    exec i s = .next (withResponse 4 0 { s with
      seq := .idle, txScript := s.txScript.drop (n + 1),
      txLog := s.txLog ++ ((planOf i s).take n).map (fun f => ⟨f.2, .ok⟩) ++ [⟨frame.2, .fail⟩] })

/-- R171: DCFB is stuck exactly when an encoder command meets a transaction that is never answered, all before it being
answered OK. -/
def Obligations.StuckExactlyWhenNeverAnswered : Prop :=
  ∀ (i : Instr) (s : State), exec i s = .fault .transportSilent ↔
    (i = .encInit ∨ i = .encRefresh) ∧
      ∃ n, n < (planOf i s).length ∧ (∀ m, m < n → answerAt s m = .ok) ∧ answerAt s n = .silent

/-- R129: after a refresh that ended in IO_ERROR, a new one whose transactions are all answered OK sends every frame of
the same buffer from the start. -/
def Obligations.RetrySendsEverythingFromTheStart : Prop :=
  ∀ s t : State, exec .encRefresh s = .next t → t.rspStatus = 4 →
    t.mem = s.mem ∧ t.segCount = s.segCount ∧
    ((∀ n, n < 8 * s.cfg.nSeg → answerAt t n = .ok) →
      ∃ u, exec .encRefresh t = .next u ∧ u.rspStatus = 0 ∧
        u.txLog = t.txLog ++ (refreshPlan s).map (fun f => ⟨f.2, .ok⟩))

/-- R96: columns beyond the chain are never displayed. Changing `B` and `S` in any way that keeps RawByte(y, t) for t <
N_SEG does not change what a refresh sends. -/
def Obligations.RefreshShowsOnlyTheChain : Prop :=
  ∀ (s t : State) (m : Memory) (n : Nat),
    (∀ y seg, y < 8 → seg < s.cfg.nSeg → rawByte { s with mem := m, segCount := n } y seg = rawByte s y seg) →
    exec .encRefresh s = .next t →
    exec .encRefresh { s with mem := m, segCount := n } = .next { t with mem := m, segCount := n }

/-! ### Observation and assembler -/

/-- R152: the dump has 8 lines of W characters and a line feed; character x of line y is X exactly when P(x, y) = 1. -/
def Obligations.DebugDumpShowsThePixels : Prop :=
  ∀ s : State, (debugDump s).length = 8 * (8 * s.segCount + 1) ∧
    ∀ y, y < 8 →
      (debugDump s)[y * (8 * s.segCount + 1) + 8 * s.segCount]? = some '\n' ∧
      ∀ x, x < 8 * s.segCount →
        (debugDump s)[y * (8 * s.segCount + 1) + x]? = some (if pixel s x y then 'X' else '-')

/-- R72, R73: every line of the syntax table gives its command exactly when its operands fit their fields, and `put`, `on`
and `off` are `setpx`. -/
def Obligations.AssemblerFollowsTheSyntaxTable : Prop :=
  ∀ a b v : Nat,
    assemble "construct" [a] = (if a ≤ 65535 then some (.construct a) else none) ∧
    assemble "getpx" [a, b] = (if a ≤ 65535 ∧ b ≤ 15 then some (.getPixel a b) else none) ∧
    assemble "setpx" [a, b, v] = (if a ≤ 65535 ∧ b ≤ 15 ∧ v ≤ 1 then some (.setPixel a b (v == 1)) else none) ∧
    assemble "setpxe" [a, b, v] = (if a ≤ 65535 ∧ b ≤ 15 ∧ v ≤ 1 then some (.setPixelExp a b (v == 1)) else none) ∧
    assemble "getcol" [a] = (if a ≤ 65535 then some (.getColumn a) else none) ∧
    assemble "shl" [a] = (if a ≤ 255 then some (.shiftLeft (BitVec.ofNat 8 a)) else none) ∧
    assemble "raw" [a, b] = (if a ≤ 15 ∧ b ≤ 65535 then some (.rawRead a b) else none) ∧
    assemble "clear" [] = some .clear ∧
    assemble "enc.init" [] = some .encInit ∧
    assemble "enc.refresh" [] = some .encRefresh ∧
    assemble "segcnt" [] = some .readSegcount ∧
    assemble "put" [a, b, v] = assemble "setpx" [a, b, v] ∧
    assemble "on" [a, b] = assemble "setpx" [a, b, 1] ∧
    assemble "off" [a, b] = assemble "setpx" [a, b, 0]
end

