-- ==== Sys2Proof/Laws/State.lean ====
section
/-! SUPPORT. One lemma per field of State per update, so that no later proof unfolds a record update. -/

namespace Sys2Proof.Machine

/-! ### `complete` -/

@[simp] theorem complete_cfg (st : Status) (d : Data) (s : State) :
    (complete st d s).cfg = s.cfg := rfl
@[simp] theorem complete_mem (st : Status) (d : Data) (s : State) :
    (complete st d s).mem = s.mem := rfl
@[simp] theorem complete_segCount (st : Status) (d : Data) (s : State) :
    (complete st d s).segCount = s.segCount := rfl
@[simp] theorem complete_rspStatus (st : Status) (d : Data) (s : State) :
    (complete st d s).rspStatus = statusCode st := rfl
@[simp] theorem complete_rspData (st : Status) (d : Data) (s : State) :
    (complete st d s).rspData = d := rfl
@[simp] theorem complete_rspValid (st : Status) (d : Data) (s : State) :
    (complete st d s).rspValid = true := rfl
@[simp] theorem complete_busy (st : Status) (d : Data) (s : State) :
    (complete st d s).busy = false := rfl
@[simp] theorem complete_seq (st : Status) (d : Data) (s : State) :
    (complete st d s).seq = s.seq := rfl
@[simp] theorem complete_hostIn (st : Status) (d : Data) (s : State) :
    (complete st d s).hostIn = s.hostIn := rfl
@[simp] theorem complete_txScript (st : Status) (d : Data) (s : State) :
    (complete st d s).txScript = s.txScript := rfl
@[simp] theorem complete_txRest (st : Status) (d : Data) (s : State) :
    (complete st d s).txRest = s.txRest := rfl
@[simp] theorem complete_txLog (st : Status) (d : Data) (s : State) :
    (complete st d s).txLog = s.txLog := rfl

/-! ### `respond` -/

@[simp] theorem respond_cfg (d : Data) (s : State) :
    (respond d s).cfg = s.cfg := rfl
@[simp] theorem respond_mem (d : Data) (s : State) :
    (respond d s).mem = s.mem := rfl
@[simp] theorem respond_segCount (d : Data) (s : State) :
    (respond d s).segCount = s.segCount := rfl
@[simp] theorem respond_rspStatus (d : Data) (s : State) :
    (respond d s).rspStatus = 0 := rfl
@[simp] theorem respond_rspData (d : Data) (s : State) :
    (respond d s).rspData = d := rfl
@[simp] theorem respond_rspValid (d : Data) (s : State) :
    (respond d s).rspValid = true := rfl
@[simp] theorem respond_busy (d : Data) (s : State) :
    (respond d s).busy = false := rfl
@[simp] theorem respond_seq (d : Data) (s : State) :
    (respond d s).seq = s.seq := rfl
@[simp] theorem respond_hostIn (d : Data) (s : State) :
    (respond d s).hostIn = s.hostIn := rfl
@[simp] theorem respond_txScript (d : Data) (s : State) :
    (respond d s).txScript = s.txScript := rfl
@[simp] theorem respond_txRest (d : Data) (s : State) :
    (respond d s).txRest = s.txRest := rfl
@[simp] theorem respond_txLog (d : Data) (s : State) :
    (respond d s).txLog = s.txLog := rfl

/-! ### `raise` -/

@[simp] theorem raise_cfg (st : Status) (s : State) :
    (raise st s).cfg = s.cfg := rfl
@[simp] theorem raise_mem (st : Status) (s : State) :
    (raise st s).mem = s.mem := rfl
@[simp] theorem raise_segCount (st : Status) (s : State) :
    (raise st s).segCount = s.segCount := rfl
@[simp] theorem raise_rspStatus (st : Status) (s : State) :
    (raise st s).rspStatus = statusCode st := rfl
@[simp] theorem raise_rspData (st : Status) (s : State) :
    (raise st s).rspData = 0 := rfl
@[simp] theorem raise_rspValid (st : Status) (s : State) :
    (raise st s).rspValid = true := rfl
@[simp] theorem raise_busy (st : Status) (s : State) :
    (raise st s).busy = false := rfl
@[simp] theorem raise_seq (st : Status) (s : State) :
    (raise st s).seq = s.seq := rfl
@[simp] theorem raise_hostIn (st : Status) (s : State) :
    (raise st s).hostIn = s.hostIn := rfl
@[simp] theorem raise_txScript (st : Status) (s : State) :
    (raise st s).txScript = s.txScript := rfl
@[simp] theorem raise_txRest (st : Status) (s : State) :
    (raise st s).txRest = s.txRest := rfl
@[simp] theorem raise_txLog (st : Status) (s : State) :
    (raise st s).txLog = s.txLog := rfl

/-! ### `accept` -/

@[simp] theorem accept_cfg (s : State) :
    (accept s).cfg = s.cfg := rfl
@[simp] theorem accept_mem (s : State) :
    (accept s).mem = s.mem := rfl
@[simp] theorem accept_segCount (s : State) :
    (accept s).segCount = s.segCount := rfl
@[simp] theorem accept_rspStatus (s : State) :
    (accept s).rspStatus = s.rspStatus := rfl
@[simp] theorem accept_rspData (s : State) :
    (accept s).rspData = s.rspData := rfl
@[simp] theorem accept_rspValid (s : State) :
    (accept s).rspValid = false := rfl
@[simp] theorem accept_busy (s : State) :
    (accept s).busy = true := rfl
@[simp] theorem accept_seq (s : State) :
    (accept s).seq = s.seq := rfl
@[simp] theorem accept_hostIn (s : State) :
    (accept s).hostIn = s.hostIn := rfl
@[simp] theorem accept_txScript (s : State) :
    (accept s).txScript = s.txScript := rfl
@[simp] theorem accept_txRest (s : State) :
    (accept s).txRest = s.txRest := rfl
@[simp] theorem accept_txLog (s : State) :
    (accept s).txLog = s.txLog := rfl

/-! ### `hardReset` -/

@[simp] theorem hardReset_cfg (s : State) :
    (hardReset s).cfg = s.cfg := rfl
@[simp] theorem hardReset_mem (s : State) :
    (hardReset s).mem = s.mem := rfl
@[simp] theorem hardReset_segCount (s : State) :
    (hardReset s).segCount = 0 := rfl
@[simp] theorem hardReset_rspStatus (s : State) :
    (hardReset s).rspStatus = 0 := rfl
@[simp] theorem hardReset_rspData (s : State) :
    (hardReset s).rspData = 0 := rfl
@[simp] theorem hardReset_rspValid (s : State) :
    (hardReset s).rspValid = false := rfl
@[simp] theorem hardReset_busy (s : State) :
    (hardReset s).busy = false := rfl
@[simp] theorem hardReset_seq (s : State) :
    (hardReset s).seq = .idle := rfl
@[simp] theorem hardReset_hostIn (s : State) :
    (hardReset s).hostIn = s.hostIn := rfl
@[simp] theorem hardReset_txScript (s : State) :
    (hardReset s).txScript = s.txScript := rfl
@[simp] theorem hardReset_txRest (s : State) :
    (hardReset s).txRest = s.txRest := rfl
@[simp] theorem hardReset_txLog (s : State) :
    (hardReset s).txLog = s.txLog := rfl

/-! ### `logTx` -/

@[simp] theorem logTx_cfg (b : List Byte) (e : TxEnd) (s : State) :
    (logTx b e s).cfg = s.cfg := rfl
@[simp] theorem logTx_mem (b : List Byte) (e : TxEnd) (s : State) :
    (logTx b e s).mem = s.mem := rfl
@[simp] theorem logTx_segCount (b : List Byte) (e : TxEnd) (s : State) :
    (logTx b e s).segCount = s.segCount := rfl
@[simp] theorem logTx_rspStatus (b : List Byte) (e : TxEnd) (s : State) :
    (logTx b e s).rspStatus = s.rspStatus := rfl
@[simp] theorem logTx_rspData (b : List Byte) (e : TxEnd) (s : State) :
    (logTx b e s).rspData = s.rspData := rfl
@[simp] theorem logTx_rspValid (b : List Byte) (e : TxEnd) (s : State) :
    (logTx b e s).rspValid = s.rspValid := rfl
@[simp] theorem logTx_busy (b : List Byte) (e : TxEnd) (s : State) :
    (logTx b e s).busy = s.busy := rfl
@[simp] theorem logTx_seq (b : List Byte) (e : TxEnd) (s : State) :
    (logTx b e s).seq = s.seq := rfl
@[simp] theorem logTx_hostIn (b : List Byte) (e : TxEnd) (s : State) :
    (logTx b e s).hostIn = s.hostIn := rfl
@[simp] theorem logTx_txScript (b : List Byte) (e : TxEnd) (s : State) :
    (logTx b e s).txScript = s.txScript := rfl
@[simp] theorem logTx_txRest (b : List Byte) (e : TxEnd) (s : State) :
    (logTx b e s).txRest = s.txRest := rfl
@[simp] theorem logTx_txLog (b : List Byte) (e : TxEnd) (s : State) :
    (logTx b e s).txLog = s.txLog ++ [⟨b, e⟩] := rfl

/-! ### `memWrite` -/

@[simp] theorem memWrite_cfg (s : State) (y seg : Nat) (v : Byte) :
    (memWrite s y seg v).cfg = s.cfg := rfl
@[simp] theorem memWrite_mem (s : State) (y seg : Nat) (v : Byte) :
    (memWrite s y seg v).mem = s.mem.write (cellAddr s.cfg y seg) v := rfl
@[simp] theorem memWrite_segCount (s : State) (y seg : Nat) (v : Byte) :
    (memWrite s y seg v).segCount = s.segCount := rfl
@[simp] theorem memWrite_rspStatus (s : State) (y seg : Nat) (v : Byte) :
    (memWrite s y seg v).rspStatus = s.rspStatus := rfl
@[simp] theorem memWrite_rspData (s : State) (y seg : Nat) (v : Byte) :
    (memWrite s y seg v).rspData = s.rspData := rfl
@[simp] theorem memWrite_rspValid (s : State) (y seg : Nat) (v : Byte) :
    (memWrite s y seg v).rspValid = s.rspValid := rfl
@[simp] theorem memWrite_busy (s : State) (y seg : Nat) (v : Byte) :
    (memWrite s y seg v).busy = s.busy := rfl
@[simp] theorem memWrite_seq (s : State) (y seg : Nat) (v : Byte) :
    (memWrite s y seg v).seq = s.seq := rfl
@[simp] theorem memWrite_hostIn (s : State) (y seg : Nat) (v : Byte) :
    (memWrite s y seg v).hostIn = s.hostIn := rfl
@[simp] theorem memWrite_txScript (s : State) (y seg : Nat) (v : Byte) :
    (memWrite s y seg v).txScript = s.txScript := rfl
@[simp] theorem memWrite_txRest (s : State) (y seg : Nat) (v : Byte) :
    (memWrite s y seg v).txRest = s.txRest := rfl
@[simp] theorem memWrite_txLog (s : State) (y seg : Nat) (v : Byte) :
    (memWrite s y seg v).txLog = s.txLog := rfl

/-! ### `zeroSegments` -/

@[simp] theorem zeroSegments_cfg (lo hi : Nat) (s : State) :
    (zeroSegments lo hi s).cfg = s.cfg := rfl
@[simp] theorem zeroSegments_mem (lo hi : Nat) (s : State) :
    (zeroSegments lo hi s).mem = s.mem.filter (fun cell => !inSegments s.cfg lo hi cell.1) := rfl
@[simp] theorem zeroSegments_segCount (lo hi : Nat) (s : State) :
    (zeroSegments lo hi s).segCount = s.segCount := rfl
@[simp] theorem zeroSegments_rspStatus (lo hi : Nat) (s : State) :
    (zeroSegments lo hi s).rspStatus = s.rspStatus := rfl
@[simp] theorem zeroSegments_rspData (lo hi : Nat) (s : State) :
    (zeroSegments lo hi s).rspData = s.rspData := rfl
@[simp] theorem zeroSegments_rspValid (lo hi : Nat) (s : State) :
    (zeroSegments lo hi s).rspValid = s.rspValid := rfl
@[simp] theorem zeroSegments_busy (lo hi : Nat) (s : State) :
    (zeroSegments lo hi s).busy = s.busy := rfl
@[simp] theorem zeroSegments_seq (lo hi : Nat) (s : State) :
    (zeroSegments lo hi s).seq = s.seq := rfl
@[simp] theorem zeroSegments_hostIn (lo hi : Nat) (s : State) :
    (zeroSegments lo hi s).hostIn = s.hostIn := rfl
@[simp] theorem zeroSegments_txScript (lo hi : Nat) (s : State) :
    (zeroSegments lo hi s).txScript = s.txScript := rfl
@[simp] theorem zeroSegments_txRest (lo hi : Nat) (s : State) :
    (zeroSegments lo hi s).txRest = s.txRest := rfl
@[simp] theorem zeroSegments_txLog (lo hi : Nat) (s : State) :
    (zeroSegments lo hi s).txLog = s.txLog := rfl

/-! ### `presentWord` -/

@[simp] theorem presentWord_cfg (w : Word) (s : State) :
    (presentWord w s).cfg = s.cfg := rfl
@[simp] theorem presentWord_mem (w : Word) (s : State) :
    (presentWord w s).mem = s.mem := rfl
@[simp] theorem presentWord_segCount (w : Word) (s : State) :
    (presentWord w s).segCount = s.segCount := rfl
@[simp] theorem presentWord_rspStatus (w : Word) (s : State) :
    (presentWord w s).rspStatus = s.rspStatus := rfl
@[simp] theorem presentWord_rspData (w : Word) (s : State) :
    (presentWord w s).rspData = s.rspData := rfl
@[simp] theorem presentWord_rspValid (w : Word) (s : State) :
    (presentWord w s).rspValid = s.rspValid := rfl
@[simp] theorem presentWord_busy (w : Word) (s : State) :
    (presentWord w s).busy = false := rfl
@[simp] theorem presentWord_seq (w : Word) (s : State) :
    (presentWord w s).seq = s.seq := rfl
@[simp] theorem presentWord_hostIn (w : Word) (s : State) :
    (presentWord w s).hostIn = .command w :: s.hostIn := rfl
@[simp] theorem presentWord_txScript (w : Word) (s : State) :
    (presentWord w s).txScript = s.txScript := rfl
@[simp] theorem presentWord_txRest (w : Word) (s : State) :
    (presentWord w s).txRest = s.txRest := rfl
@[simp] theorem presentWord_txLog (w : Word) (s : State) :
    (presentWord w s).txLog = s.txLog := rfl

/-! ### `withResponse` -/

@[simp] theorem withResponse_cfg (st : BitVec 3) (d : Data) (s : State) :
    (withResponse st d s).cfg = s.cfg := rfl
@[simp] theorem withResponse_mem (st : BitVec 3) (d : Data) (s : State) :
    (withResponse st d s).mem = s.mem := rfl
@[simp] theorem withResponse_segCount (st : BitVec 3) (d : Data) (s : State) :
    (withResponse st d s).segCount = s.segCount := rfl
@[simp] theorem withResponse_rspStatus (st : BitVec 3) (d : Data) (s : State) :
    (withResponse st d s).rspStatus = st := rfl
@[simp] theorem withResponse_rspData (st : BitVec 3) (d : Data) (s : State) :
    (withResponse st d s).rspData = d := rfl
@[simp] theorem withResponse_rspValid (st : BitVec 3) (d : Data) (s : State) :
    (withResponse st d s).rspValid = true := rfl
@[simp] theorem withResponse_busy (st : BitVec 3) (d : Data) (s : State) :
    (withResponse st d s).busy = false := rfl
@[simp] theorem withResponse_seq (st : BitVec 3) (d : Data) (s : State) :
    (withResponse st d s).seq = s.seq := rfl
@[simp] theorem withResponse_hostIn (st : BitVec 3) (d : Data) (s : State) :
    (withResponse st d s).hostIn = s.hostIn := rfl
@[simp] theorem withResponse_txScript (st : BitVec 3) (d : Data) (s : State) :
    (withResponse st d s).txScript = s.txScript := rfl
@[simp] theorem withResponse_txRest (st : BitVec 3) (d : Data) (s : State) :
    (withResponse st d s).txRest = s.txRest := rfl
@[simp] theorem withResponse_txLog (st : BitVec 3) (d : Data) (s : State) :
    (withResponse st d s).txLog = s.txLog := rfl

end Sys2Proof.Machine
end

