-- ==== Sys2Proof/Laws/Transport.lean ====
section
/-! SUPPORT. What a run of transactions does: all answered OK, stopped at the first FAIL, or hung at the first that is
never answered; and that these are the only ways it goes. -/

namespace Sys2Proof.Machine

/-- The transactions of some frames, all answered OK, as the stream records them. -/
def sentOk (plan : List (Sequencer × List Byte)) : List TxRecord := plan.map (fun f => ⟨f.2, .ok⟩)

@[simp] theorem sentOk_nil : sentOk [] = [] := rfl

@[simp] theorem sentOk_cons (f : Sequencer × List Byte) (plan : List (Sequencer × List Byte)) :
    sentOk (f :: plan) = ⟨f.2, .ok⟩ :: sentOk plan := rfl

@[simp] theorem sentOk_length (plan : List (Sequencer × List Byte)) : (sentOk plan).length = plan.length := by
  simp [sentOk]

/-- What a transaction leaves behind: one answer used, one entry more, the sequencer at its position. -/
theorem answerAt_tail (s : State) (pos : Sequencer) (log : List TxRecord) (n : Nat) :
    answerAt { s with seq := pos, txScript := s.txScript.tail, txLog := log } n = answerAt s (n + 1) := by
  cases h : s.txScript <;> simp [answerAt, h]

theorem transmitAll_cons_ok {pos : Sequencer} {bytes : List Byte} {rest : List (Sequencer × List Byte)} {s : State}
    (h : answerAt s 0 = .ok) :
    transmitAll ((pos, bytes) :: rest) s
      = transmitAll rest { s with seq := pos, txScript := s.txScript.tail, txLog := s.txLog ++ [⟨bytes, .ok⟩] } := by
  simp only [transmitAll, h, logTx]

/-- Every answer OK: every transaction is sent. -/
theorem transmitAll_allOk {plan : List (Sequencer × List Byte)} {s : State}
    (h : ∀ n < plan.length, answerAt s n = .ok) :
    ∃ q, transmitAll plan s = .allOk { s with
      seq := q, txScript := s.txScript.drop plan.length, txLog := s.txLog ++ sentOk plan } := by
  induction plan generalizing s with
  | nil => exact ⟨s.seq, by simp [transmitAll]⟩
  | cons f rest ih =>
    obtain ⟨pos, bytes⟩ := f
    rw [transmitAll_cons_ok (h 0 (by simp))]
    obtain ⟨q, hq⟩ := ih (s := { s with
      seq := pos, txScript := s.txScript.tail, txLog := s.txLog ++ [⟨bytes, .ok⟩] }) (fun n hn => by
        rw [answerAt_tail]; exact h (n + 1) (by simpa using hn))
    exact ⟨q, by rw [hq]; simp⟩

/-- The first answer that is not OK is FAIL, to transaction `n`: exactly n + 1 transactions are sent (R121, R126). -/
theorem transmitAll_failed {plan : List (Sequencer × List Byte)} {s : State} {n : Nat} (hn : n < plan.length)
    (hok : ∀ m < n, answerAt s m = .ok) (hfail : answerAt s n = .fail) :
    ∃ q, transmitAll plan s = .failed { s with
      seq := q, txScript := s.txScript.drop (n + 1),
      txLog := s.txLog ++ sentOk (plan.take n) ++ [⟨plan[n].2, .fail⟩] } := by
  induction n generalizing plan s with
  | zero =>
    cases plan with
    | nil => simp at hn
    | cons f rest =>
      obtain ⟨pos, bytes⟩ := f
      exact ⟨pos, by simp [transmitAll, hfail, logTx, List.drop_one]⟩
  | succ n ih =>
    cases plan with
    | nil => simp at hn
    | cons f rest =>
      obtain ⟨pos, bytes⟩ := f
      rw [transmitAll_cons_ok (hok 0 (by omega))]
      obtain ⟨q, hq⟩ := ih (plan := rest) (s := { s with
        seq := pos, txScript := s.txScript.tail, txLog := s.txLog ++ [⟨bytes, .ok⟩] }) (by simpa using hn)
        (fun m hm => by rw [answerAt_tail]; exact hok (m + 1) (by omega)) (by rw [answerAt_tail]; exact hfail)
      exact ⟨q, by rw [hq]; simp [← List.drop_one, List.drop_drop, Nat.add_comm 1 (n + 1)]⟩

/-- The first answer that is not OK never comes, for transaction `n`: the run hangs there (R171). -/
theorem transmitAll_hung {plan : List (Sequencer × List Byte)} {s : State} {n : Nat} (hn : n < plan.length)
    (hok : ∀ m < n, answerAt s m = .ok) (hsilent : answerAt s n = .silent) :
    ∃ q, transmitAll plan s = .hung plan[n].2 { s with
      seq := q, txScript := s.txScript.drop (n + 1), txLog := s.txLog ++ sentOk (plan.take n) } := by
  induction n generalizing plan s with
  | zero =>
    cases plan with
    | nil => simp at hn
    | cons f rest =>
      obtain ⟨pos, bytes⟩ := f
      exact ⟨pos, by simp [transmitAll, hsilent, List.drop_one]⟩
  | succ n ih =>
    cases plan with
    | nil => simp at hn
    | cons f rest =>
      obtain ⟨pos, bytes⟩ := f
      rw [transmitAll_cons_ok (hok 0 (by omega))]
      obtain ⟨q, hq⟩ := ih (plan := rest) (s := { s with
        seq := pos, txScript := s.txScript.tail, txLog := s.txLog ++ [⟨bytes, .ok⟩] }) (by simpa using hn)
        (fun m hm => by rw [answerAt_tail]; exact hok (m + 1) (by omega)) (by rw [answerAt_tail]; exact hsilent)
      exact ⟨q, by rw [hq]; simp [← List.drop_one, List.drop_drop, Nat.add_comm 1 (n + 1)]⟩

/-- The first `k` answers are all OK, or one of them is the first that is not. -/
theorem answers_cases (s : State) (k : Nat) :
    (∀ n < k, answerAt s n = .ok) ∨
    (∃ n < k, (∀ m < n, answerAt s m = .ok) ∧ answerAt s n = .fail) ∨
    (∃ n < k, (∀ m < n, answerAt s m = .ok) ∧ answerAt s n = .silent) := by
  induction k with
  | zero => exact .inl (by simp)
  | succ k ih =>
    rcases ih with h | ⟨n, hn, h⟩ | ⟨n, hn, h⟩
    · cases hk : answerAt s k with
      | ok => exact .inl (fun n hn => by
          rcases Nat.lt_succ_iff_lt_or_eq.mp hn with h' | rfl
          · exact h n h'
          · exact hk)
      | fail => exact .inr (.inl ⟨k, by omega, h, hk⟩)
      | silent => exact .inr (.inr ⟨k, by omega, h, hk⟩)
    · exact .inr (.inl ⟨n, by omega, h⟩)
    · exact .inr (.inr ⟨n, by omega, h⟩)

/-- Everything a finished run of transactions can be (R120, R121, R171). -/
theorem finishTransmit_cases (plan : List (Sequencer × List Byte)) (s : State) :
    ((∀ n < plan.length, answerAt s n = .ok) ∧
      finishTransmit (transmitAll plan s) = .next (withResponse 0 0 { s with
        seq := .idle, txScript := s.txScript.drop plan.length, txLog := s.txLog ++ sentOk plan })) ∨
    (∃ n, ∃ hn : n < plan.length, (∀ m < n, answerAt s m = .ok) ∧ answerAt s n = .fail ∧
      finishTransmit (transmitAll plan s) = .next (withResponse 4 0 { s with
        seq := .idle, txScript := s.txScript.drop (n + 1),
        txLog := s.txLog ++ sentOk (plan.take n) ++ [⟨plan[n].2, .fail⟩] })) ∨
    (∃ n < plan.length, (∀ m < n, answerAt s m = .ok) ∧ answerAt s n = .silent ∧
      finishTransmit (transmitAll plan s) = .fault .transportSilent) := by
  rcases answers_cases s plan.length with h | ⟨n, hn, hok, hfail⟩ | ⟨n, hn, hok, hsilent⟩
  · obtain ⟨q, hq⟩ := transmitAll_allOk h
    exact .inl ⟨h, by rw [hq]; rfl⟩
  · obtain ⟨q, hq⟩ := transmitAll_failed hn hok hfail
    exact .inr (.inl ⟨n, hn, hok, hfail, by rw [hq]; rfl⟩)
  · obtain ⟨q, hq⟩ := transmitAll_hung hn hok hsilent
    exact .inr (.inr ⟨n, hn, hok, hsilent, by rw [hq]; rfl⟩)

/-- What a command cut off by `rst` leaves in the stream: some of its frames in order, only the last of them not
answered OK (R161). -/
theorem transmitUntilCut_cases (k : Nat) (plan : List (Sequencer × List Byte)) (s : State) :
    ∃ q script sent, transmitUntilCut k plan s = { s with seq := q, txScript := script, txLog := s.txLog ++ sent } ∧
      ((sent = sentOk (plan.take k) ∧ plan.length ≤ k) ∨
        ∃ n, ∃ hn : n < plan.length, ∃ e, n ≤ k ∧ sent = sentOk (plan.take n) ++ [⟨plan[n].2, e⟩]) := by
  unfold transmitUntilCut
  rcases answers_cases s (plan.take k).length with h | ⟨n, hn, hok, hfail⟩ | ⟨n, hn, hok, hsilent⟩
  · obtain ⟨q, hq⟩ := transmitAll_allOk h
    rw [hq]
    by_cases hk : k < plan.length
    · have hget : plan[k]? = some plan[k] := List.getElem?_eq_getElem hk
      exact ⟨q, _, sentOk (plan.take k) ++ [⟨plan[k].2, .cut⟩], by simp [hget, logTx]; rfl,
        .inr ⟨k, hk, .cut, le_rfl, rfl⟩⟩
    · have hget : plan[k]? = none := List.getElem?_eq_none (by omega)
      exact ⟨q, _, sentOk (plan.take k), by simp [hget]; rfl, .inl ⟨rfl, by omega⟩⟩
  · obtain ⟨q, hq⟩ := transmitAll_failed hn hok hfail
    rw [hq]
    have hn' : n < k ∧ n < plan.length := by simpa using hn
    exact ⟨q, _, sentOk (plan.take n) ++ [⟨plan[n].2, .fail⟩], by
      simp [List.take_take, Nat.min_eq_left (le_of_lt hn'.1)]; rfl, .inr ⟨n, hn'.2, .fail, by omega, rfl⟩⟩
  · obtain ⟨q, hq⟩ := transmitAll_hung hn hok hsilent
    rw [hq]
    have hn' : n < k ∧ n < plan.length := by simpa using hn
    exact ⟨q, _, sentOk (plan.take n) ++ [⟨plan[n].2, .cut⟩], by
      simp [List.take_take, Nat.min_eq_left (le_of_lt hn'.1), logTx]; rfl, .inr ⟨n, hn'.2, .cut, by omega, rfl⟩⟩

end Sys2Proof.Machine
end

