-- ==== Sys2Proof/Laws/Encoder.lean ====
section
/-! SUPPORT. The frames of the encoder: how many, how long, and where each stands in the plan (R124 to R126). -/

namespace Sys2Proof.Machine

/-- A broadcast frame is its command repeated N_SEG times (R122). -/
theorem broadcastFrame_eq (c : Config) (reg value : Byte) :
    broadcastFrame c reg value = (List.replicate c.nSeg [reg, value]).flatten := by
  unfold broadcastFrame
  rw [List.flatMap_def, List.map_const', List.length_range]

/-- A list built of pairs has the k-th pair at 2k and 2k + 1. -/
theorem getElem_flatMap_pairs (f : Nat → Byte × Byte) {n k : Nat} (hk : k < n) :
    ((List.range n).flatMap (fun k => [(f k).1, (f k).2]))[2 * k]? = some (f k).1 ∧
      ((List.range n).flatMap (fun k => [(f k).1, (f k).2]))[2 * k + 1]? = some (f k).2 := by
  induction n with
  | zero => omega
  | succ n ih =>
    have hlen : ((List.range n).flatMap (fun k => [(f k).1, (f k).2])).length = 2 * n := by
      simp [List.length_flatMap, List.map_const']; omega
    rw [List.range_succ, List.flatMap_append]
    by_cases h : k < n
    · rw [List.getElem?_append_left (by omega), List.getElem?_append_left (by omega)]
      exact ih h
    · obtain rfl : k = n := by omega
      rw [List.getElem?_append_right (by omega), List.getElem?_append_right (by omega), hlen]
      simp

/-- The command in slot k of frame(r, t) (R125). -/
def refreshSlot (s : State) (r t k : Nat) : Byte × Byte :=
  if s.cfg.nSeg - 1 - k = t then (BitVec.ofNat 8 r, rawByte s (r - 1) t) else (0x00, s.cfg.noopData)

theorem refreshFrame_eq (s : State) (r t : Nat) :
    refreshFrame s r t
      = (List.range s.cfg.nSeg).flatMap (fun k => [(refreshSlot s r t k).1, (refreshSlot s r t k).2]) := by
  unfold refreshFrame
  congr 1
  funext k
  unfold refreshSlot
  split <;> rfl

@[simp] theorem refreshFrame_length (s : State) (r t : Nat) : (refreshFrame s r t).length = 2 * s.cfg.nSeg := by
  rw [refreshFrame_eq]
  simp [List.length_flatMap, List.map_const']
  omega

@[simp] theorem refreshPlan_length (s : State) : (refreshPlan s).length = 8 * s.cfg.nSeg := by
  simp [refreshPlan, List.length_flatMap, List.map_const']
  omega

/-- Rows one after another, N_SEG frames each: frame j·N_SEG + t of a run of rows is target t of its j-th row. -/
theorem getElem_rows (s : State) {t : Nat} (ht : t < s.cfg.nSeg) (m start j : Nat) (hj : j < m) :
    ((List.range' start m).flatMap (fun r =>
      (List.range s.cfg.nSeg).map (fun t => (Sequencer.refresh r t, refreshFrame s r t))))[j * s.cfg.nSeg + t]?
      = some (.refresh (start + j) t, refreshFrame s (start + j) t) := by
  induction m generalizing start j with
  | zero => omega
  | succ m ih =>
    rw [List.range'_succ, List.flatMap_cons]
    cases j with
    | zero =>
      rw [List.getElem?_append_left (by simp; omega)]
      simp [ht]
    | succ j =>
      rw [List.getElem?_append_right (by simp [Nat.add_mul]; omega)]
      simp only [List.length_map, List.length_range]
      rw [show (j + 1) * s.cfg.nSeg + t - s.cfg.nSeg = j * s.cfg.nSeg + t by rw [Nat.add_mul]; omega,
        ih (start + 1) j (by omega), show start + 1 + j = start + (j + 1) by omega]

/-- Transaction (r − 1)·N_SEG + t of a refresh is frame(r, t) (R125). -/
theorem getElem_refreshPlan (s : State) {r t : Nat} (h1 : 1 ≤ r) (h8 : r ≤ 8) (ht : t < s.cfg.nSeg) :
    (refreshPlan s)[(r - 1) * s.cfg.nSeg + t]? = some (.refresh r t, refreshFrame s r t) := by
  have h := getElem_rows s ht 8 1 (r - 1) (by omega)
  rwa [show 1 + (r - 1) = r by omega] at h

end Sys2Proof.Machine
end

