-- ==== Sys2Proof/Laws/Encoding.lean ====
section
/-! SUPPORT. The fields of a packed word, and when a word matches a row of R64, said by its fields. -/

namespace Sys2Proof

@[simp] theorem opField_packFields (op y : BitVec 4) (b : BitVec 8) (x : BitVec 16) :
    opField (packFields op y b x) = op := by
  apply BitVec.eq_of_getLsbD_eq
  intro i hi
  simp only [opField, packFields, BitVec.getLsbD_extractLsb', BitVec.getLsbD_append]
  simp [hi, show ¬28 + i < 16 by omega, show ¬28 + i - 16 < 8 by omega, show ¬28 + i - 16 - 8 < 4 by omega,
    show 28 + i - 16 - 8 - 4 = i by omega]

@[simp] theorem yField_packFields (op y : BitVec 4) (b : BitVec 8) (x : BitVec 16) :
    yField (packFields op y b x) = y := by
  apply BitVec.eq_of_getLsbD_eq
  intro i hi
  simp only [yField, packFields, BitVec.getLsbD_extractLsb', BitVec.getLsbD_append]
  simp [hi, show ¬24 + i < 16 by omega, show ¬24 + i - 16 < 8 by omega, show 24 + i - 16 - 8 = i by omega]

@[simp] theorem bField_packFields (op y : BitVec 4) (b : BitVec 8) (x : BitVec 16) :
    bField (packFields op y b x) = b := by
  apply BitVec.eq_of_getLsbD_eq
  intro i hi
  simp only [bField, packFields, BitVec.getLsbD_extractLsb', BitVec.getLsbD_append]
  simp [hi, show ¬16 + i < 16 by omega, show 16 + i - 16 = i by omega]

@[simp] theorem xField_packFields (op y : BitVec 4) (b : BitVec 8) (x : BitVec 16) :
    xField (packFields op y b x) = x := by
  apply BitVec.eq_of_getLsbD_eq
  intro i hi
  simp only [xField, packFields, BitVec.getLsbD_extractLsb', BitVec.getLsbD_append]
  simp [hi]

/-- A word is its four fields (R60). -/
theorem packFields_fields (w : Word) : packFields (opField w) (yField w) (bField w) (xField w) = w := by
  apply BitVec.eq_of_getLsbD_eq
  intro i hi
  simp only [packFields, opField, yField, bField, xField, BitVec.getLsbD_append, BitVec.getLsbD_extractLsb']
  by_cases h1 : i < 16
  · simp [h1]
  · by_cases h2 : i < 24
    · simp [h1, show i - 16 < 8 by omega, show 16 + (i - 16) = i by omega]
    · by_cases h3 : i < 28
      · simp [h1, show ¬i - 16 < 8 by omega, show i - 16 - 8 < 4 by omega, show 24 + (i - 16 - 8) = i by omega]
      · simp [h1, show ¬i - 16 < 8 by omega, show ¬i - 16 - 8 < 4 by omega, show i - 16 - 8 - 4 < 4 by omega,
          show 28 + (i - 16 - 8 - 4) = i by omega]

/-- Two packed words are equal exactly when their fields are. -/
theorem packFields_inj {op op' y y' : BitVec 4} {b b' : BitVec 8} {x x' : BitVec 16} :
    packFields op y b x = packFields op' y' b' x' ↔ op = op' ∧ y = y' ∧ b = b' ∧ x = x' := by
  constructor
  · intro h
    exact ⟨by rw [← opField_packFields op y b x, h, opField_packFields],
      by rw [← yField_packFields op y b x, h, yField_packFields],
      by rw [← bField_packFields op y b x, h, bField_packFields],
      by rw [← xField_packFields op y b x, h, xField_packFields]⟩
  · rintro ⟨rfl, rfl, rfl, rfl⟩; rfl

/-- Masking a packed word masks each field. -/
theorem packFields_and (op op' y y' : BitVec 4) (b b' : BitVec 8) (x x' : BitVec 16) :
    packFields op y b x &&& packFields op' y' b' x' = packFields (op &&& op') (y &&& y') (b &&& b') (x &&& x') := by
  apply BitVec.eq_of_getLsbD_eq
  intro i hi
  simp only [packFields, BitVec.getLsbD_and, BitVec.getLsbD_append]
  split
  · rfl
  · split
    · rfl
    · split <;> rfl

/-- A word matches a row whose mask and pattern are given by fields exactly when each masked field does (R64). -/
theorem matches_iff (w : Word) (op y : BitVec 4) (b : BitVec 8) (x : BitVec 16) (mop my : BitVec 4) (mb : BitVec 8)
    (mx : BitVec 16) :
    w &&& packFields mop my mb mx = packFields op y b x ↔
      opField w &&& mop = op ∧ yField w &&& my = y ∧ bField w &&& mb = b ∧ xField w &&& mx = x := by
  conv_lhs => rw [← packFields_fields w, packFields_and, packFields_inj]

/-! ### The masks of R64 -/

theorem and_nibble (v : BitVec 4) : v &&& 0xF = v := BitVec.and_allOnes

theorem and_byte (v : BitVec 8) : v &&& 0xFF = v := BitVec.and_allOnes

theorem and_clear {n : Nat} (v : BitVec n) : v &&& 0 = 0 := BitVec.and_zero

theorem and_half (v : BitVec 16) : v &&& 0xFFFF = v := BitVec.and_allOnes

/-- A pixel write's byte matches its mask when `b[7:1]` is 0 (R63). -/
theorem pixelMask_iff (b : BitVec 8) : b &&& 0xFE = 0 ↔ b.toNat < 2 := by revert b; decide

/-- The byte of a pixel value is the byte whose bit 0 it is, when `b[7:1]` is 0 (R63). -/
theorem pixelByte_getLsbD {b : BitVec 8} (h : b.toNat < 2) : pixelByte (b.getLsbD 0) = b := by
  revert h; revert b; decide

@[simp] theorem getLsbD_pixelByte (v : Bool) : (pixelByte v).getLsbD 0 = v := by cases v <;> rfl

theorem pixelByte_lt (v : Bool) : (pixelByte v).toNat < 2 := by cases v <;> decide

/-- Rows with operand `x` alone: `y` and `b` are 0 (R64). -/
theorem selectRow_x (w : Word) (op : BitVec 4) (pattern : Word) (h : pattern = packFields op 0 0 0) (i : Instr) :
    selectRow w 0xFFFF0000 pattern i
      = if opField w = op ∧ yField w = 0 ∧ bField w = 0 then .ok i else .error .mustBeZero := by
  subst h
  rw [selectRow, show (0xFFFF0000 : Word) = packFields 0xF 0xF 0xFF 0 from rfl]
  simp only [matches_iff, and_nibble, and_byte, and_clear, and_true]

/-- Rows with operands `x` and `y`: `b` is 0 (R64). -/
theorem selectRow_xy (w : Word) (op : BitVec 4) (pattern : Word) (h : pattern = packFields op 0 0 0) (i : Instr) :
    selectRow w 0xF0FF0000 pattern i
      = if opField w = op ∧ bField w = 0 then .ok i else .error .mustBeZero := by
  subst h
  rw [selectRow, show (0xF0FF0000 : Word) = packFields 0xF 0 0xFF 0 from rfl]
  simp only [matches_iff, and_nibble, and_byte, and_clear, and_true, true_and]

/-- Rows with operands `x`, `y` and `v`: `b[7:1]` is 0 (R64). -/
theorem selectRow_xyv (w : Word) (op : BitVec 4) (pattern : Word) (h : pattern = packFields op 0 0 0) (i : Instr) :
    selectRow w 0xF0FE0000 pattern i
      = if opField w = op ∧ (bField w).toNat < 2 then .ok i else .error .mustBeZero := by
  subst h
  rw [selectRow, show (0xF0FE0000 : Word) = packFields 0xF 0 0xFE 0 from rfl]
  simp only [matches_iff, and_nibble, and_clear, pixelMask_iff, and_true, true_and]

/-- The row with operand `b`: `y` and `x` are 0 (R64). -/
theorem selectRow_b (w : Word) (op : BitVec 4) (pattern : Word) (h : pattern = packFields op 0 0 0) (i : Instr) :
    selectRow w 0xFF00FFFF pattern i
      = if opField w = op ∧ yField w = 0 ∧ xField w = 0 then .ok i else .error .mustBeZero := by
  subst h
  rw [selectRow, show (0xFF00FFFF : Word) = packFields 0xF 0xF 0 0xFFFF from rfl]
  simp only [matches_iff, and_nibble, and_half, and_clear, true_and]

/-- Rows without operands: every other field is 0 (R64). -/
theorem selectRow_none (w : Word) (op : BitVec 4) (pattern : Word) (h : pattern = packFields op 0 0 0) (i : Instr) :
    selectRow w 0xFFFFFFFF pattern i
      = if opField w = op ∧ yField w = 0 ∧ bField w = 0 ∧ xField w = 0 then .ok i else .error .mustBeZero := by
  subst h
  rw [selectRow, show (0xFFFFFFFF : Word) = packFields 0xF 0xF 0xFF 0xFFFF from rfl]
  simp only [matches_iff, and_nibble, and_byte, and_half]

/-- The decoder by fields: R70 with every mask test said as the fields that must be 0. -/
theorem decode_by_fields (w : Word) : decode w =
    match (opField w).toNat with
    | 1 => if opField w = 1 ∧ yField w = 0 ∧ bField w = 0 then .ok (.construct (xField w).toNat) else .error .mustBeZero
    | 2 => if opField w = 2 ∧ bField w = 0 then .ok (.getPixel (xField w).toNat (yField w).toNat)
        else .error .mustBeZero
    | 3 => if opField w = 3 ∧ (bField w).toNat < 2
        then .ok (.setPixel (xField w).toNat (yField w).toNat ((bField w).getLsbD 0)) else .error .mustBeZero
    | 4 => if opField w = 4 ∧ (bField w).toNat < 2
        then .ok (.setPixelExp (xField w).toNat (yField w).toNat ((bField w).getLsbD 0)) else .error .mustBeZero
    | 5 => if opField w = 5 ∧ yField w = 0 ∧ bField w = 0 then .ok (.getColumn (xField w).toNat) else .error .mustBeZero
    | 6 => if opField w = 6 ∧ yField w = 0 ∧ xField w = 0 then .ok (.shiftLeft (bField w)) else .error .mustBeZero
    | 7 => if opField w = 7 ∧ bField w = 0 then .ok (.rawRead (yField w).toNat (xField w).toNat)
        else .error .mustBeZero
    | 8 => if opField w = 8 ∧ yField w = 0 ∧ bField w = 0 ∧ xField w = 0 then .ok .clear else .error .mustBeZero
    | 9 => if opField w = 9 ∧ yField w = 0 ∧ bField w = 0 ∧ xField w = 0 then .ok .encInit else .error .mustBeZero
    | 10 => if opField w = 10 ∧ yField w = 0 ∧ bField w = 0 ∧ xField w = 0 then .ok .encRefresh else .error .mustBeZero
    | 11 => if opField w = 11 ∧ yField w = 0 ∧ bField w = 0 ∧ xField w = 0 then .ok .readSegcount
        else .error .mustBeZero
    | _ => .error .reservedOp := by
  unfold decode
  simp only
  rewrite [selectRow_x w 1 0x10000000 rfl, selectRow_xy w 2 0x20000000 rfl, selectRow_xyv w 3 0x30000000 rfl,
    selectRow_xyv w 4 0x40000000 rfl, selectRow_x w 5 0x50000000 rfl, selectRow_b w 6 0x60000000 rfl,
    selectRow_xy w 7 0x70000000 rfl, selectRow_none w 8 0x80000000 rfl, selectRow_none w 9 0x90000000 rfl,
    selectRow_none w 10 0xA0000000 rfl, selectRow_none w 11 0xB0000000 rfl]
  rfl

end Sys2Proof
end

