-- ==== Sys2Proof/Laws/Memory.lean ====
section
/-! SUPPORT. The laws of the memory list: what a read gives after a write or a zeroing, that every operation keeps the
canonical form and the address range, and that canonical memories with equal reads are equal. -/

namespace Sys2Proof.Machine

@[simp] theorem Memory.read_nil (k : Nat) : Memory.read [] k = fillByte := rfl

theorem Memory.read_cons (a : Nat) (v : Byte) (m : Memory) (k : Nat) :
    Memory.read ((a, v) :: m) k = if a = k then v else Memory.read m k := rfl

/-- Keeping the entries whose address satisfies `p` keeps those reads and clears the others. -/
theorem Memory.read_filter (p : Nat → Bool) (m : Memory) (k : Nat) :
    Memory.read (m.filter (fun c => p c.1)) k = if p k then m.read k else fillByte := by
  induction m with
  | nil => simp
  | cons c m ih =>
    obtain ⟨a, v⟩ := c
    by_cases hp : p a
    · rw [List.filter_cons_of_pos (by simpa using hp), Memory.read_cons, Memory.read_cons, ih]
      by_cases h : a = k
      · subst h; simp [hp]
      · simp [h]
    · rw [List.filter_cons_of_neg (by simpa using hp), ih, Memory.read_cons]
      by_cases h : a = k
      · subst h; simp [hp]
      · simp [h]

theorem Memory.read_erase (m : Memory) (j k : Nat) :
    (m.erase j).read k = if k = j then fillByte else m.read k := by
  have h := Memory.read_filter (fun a => decide (a ≠ j)) m k
  simp only [Memory.erase]
  rw [h]
  by_cases hk : k = j <;> simp [hk]

theorem Memory.read_insert (m : Memory) (j : Nat) (v : Byte) (k : Nat) (hj : j ∉ m.map Prod.fst) :
    (Memory.insert m j v).read k = if k = j then v else m.read k := by
  induction m with
  | nil => simp [Memory.insert, Memory.read_cons, eq_comm]
  | cons c m ih =>
    obtain ⟨a, b⟩ := c
    simp only [List.map_cons, List.mem_cons, not_or] at hj
    rw [Memory.insert]
    split
    · simp only [Memory.read_cons, eq_comm]
    · rw [Memory.read_cons, ih hj.2, Memory.read_cons]
      by_cases h : a = k
      · subst h; simp [Ne.symm hj.1]
      · simp [h]

theorem Memory.notMem_erase (m : Memory) (k : Nat) : k ∉ (m.erase k).map Prod.fst := by
  simp [Memory.erase]

/-- Read after write. -/
theorem Memory.read_write (m : Memory) (j : Nat) (v : Byte) (k : Nat) :
    (m.write j v).read k = if k = j then v else m.read k := by
  unfold Memory.write
  split
  · rename_i hv; rw [Memory.read_erase, hv]
  · rw [Memory.read_insert _ _ _ _ (Memory.notMem_erase m j), Memory.read_erase]
    by_cases h : k = j <;> simp [h]

@[simp] theorem Memory.read_write_same (m : Memory) (k : Nat) (v : Byte) : (m.write k v).read k = v := by
  simp [Memory.read_write]

theorem Memory.read_write_other (m : Memory) {j k : Nat} (v : Byte) (h : k ≠ j) :
    (m.write j v).read k = m.read k := by
  simp [Memory.read_write, h]

/-! ### The canonical form -/

/-- The bound of `wfAbove` as a proposition. -/
def Memory.below (b : Option Nat) (k : Nat) : Prop := ∀ a, b = some a → a < k

theorem Memory.wfAbove_cons (b : Option Nat) (a : Nat) (v : Byte) (m : Memory) :
    Memory.wfAbove b ((a, v) :: m) = true ↔
      Memory.below b a ∧ v ≠ fillByte ∧ Memory.wfAbove (some a) m = true := by
  cases b <;> simp [Memory.wfAbove, Memory.below, and_assoc]

theorem Memory.wfAbove_weaken {b b' : Option Nat} {m : Memory} (h : ∀ k, Memory.below b k → Memory.below b' k)
    (hm : Memory.wfAbove b m = true) : Memory.wfAbove b' m = true := by
  cases m with
  | nil => simp [Memory.wfAbove]
  | cons c m =>
    obtain ⟨a, v⟩ := c
    rw [Memory.wfAbove_cons] at hm ⊢
    exact ⟨h a hm.1, hm.2⟩

theorem Memory.below_trans {b : Option Nat} {j k : Nat} (h : Memory.below b j) (hjk : j < k) : Memory.below b k :=
  fun a ha => lt_trans (h a ha) hjk

theorem Memory.wfAbove_filter (p : Host.Cell → Bool) {b : Option Nat} {m : Memory}
    (hm : Memory.wfAbove b m = true) : Memory.wfAbove b (m.filter p) = true := by
  induction m generalizing b with
  | nil => simpa using hm
  | cons c m ih =>
    obtain ⟨a, v⟩ := c
    rw [Memory.wfAbove_cons] at hm
    rw [List.filter_cons]
    split
    · rw [Memory.wfAbove_cons]
      exact ⟨hm.1, hm.2.1, ih hm.2.2⟩
    · exact ih (Memory.wfAbove_weaken (fun k hk => Memory.below_trans hm.1 (hk a rfl)) hm.2.2)

theorem Memory.wfAbove_insert {b : Option Nat} {m : Memory} {k : Nat} {v : Byte} (hk : k ∉ m.map Prod.fst)
    (hv : v ≠ fillByte) (hb : Memory.below b k) (hm : Memory.wfAbove b m = true) :
    Memory.wfAbove b (Memory.insert m k v) = true := by
  induction m generalizing b with
  | nil => rw [Memory.insert, Memory.wfAbove_cons]; exact ⟨hb, hv, by simp [Memory.wfAbove]⟩
  | cons c m ih =>
    obtain ⟨a, w⟩ := c
    simp only [List.map_cons, List.mem_cons, not_or] at hk
    rw [Memory.wfAbove_cons] at hm
    rw [Memory.insert]
    split
    · rename_i hlt
      rw [Memory.wfAbove_cons, Memory.wfAbove_cons]
      exact ⟨hb, hv, fun j hj => by cases hj; exact hlt, hm.2⟩
    · rename_i hge
      rw [Memory.wfAbove_cons]
      have hak : a < k := lt_of_le_of_ne (not_lt.mp hge) (Ne.symm hk.1)
      exact ⟨hm.1, hm.2.1, ih hk.2 (fun j hj => by cases hj; exact hak) hm.2.2⟩

/-- Every filtering of the memory (a zeroing, an erasing) keeps the canonical form. -/
theorem Memory.wf_filter (p : Host.Cell → Bool) {m : Memory} (hm : m.wf = true) :
    Memory.wf (m.filter p) = true :=
  Memory.wfAbove_filter p hm

/-- Every write keeps the canonical form. -/
theorem Memory.wf_write {m : Memory} (hm : m.wf = true) (k : Nat) (v : Byte) : (m.write k v).wf = true := by
  unfold Memory.write
  split
  · exact Memory.wf_filter _ hm
  · rename_i hv
    exact Memory.wfAbove_insert (Memory.notMem_erase m k) hv (by simp [Memory.below]) (Memory.wf_filter _ hm)

theorem Memory.wf_nil : Memory.wf [] = true := rfl

/-! ### Where entries stand -/

theorem Memory.mem_insert {m : Memory} {k : Nat} {v : Byte} {c : Host.Cell}
    (hc : c ∈ Memory.insert m k v) : c = (k, v) ∨ c ∈ m := by
  induction m with
  | nil => simpa [Memory.insert] using hc
  | cons d m ih =>
    obtain ⟨a, b⟩ := d
    rw [Memory.insert] at hc
    split at hc
    · simpa using hc
    · rcases List.mem_cons.mp hc with h | h
      · exact .inr (by simp [h])
      · exact (ih h).imp id (fun h => List.mem_cons_of_mem _ h)

/-- An entry after a write is the written one or was there before. -/
theorem Memory.mem_write {m : Memory} {k : Nat} {v : Byte} {c : Host.Cell} (hc : c ∈ m.write k v) :
    c.1 = k ∨ c ∈ m := by
  unfold Memory.write at hc
  split at hc
  · exact .inr (List.mem_filter.mp hc).1
  · rcases Memory.mem_insert hc with h | h
    · exact .inl (by simp [h])
    · exact .inr (List.mem_filter.mp h).1

/-! ### Equal reads, equal memories -/

theorem Memory.read_of_wfAbove {b : Nat} {m : Memory} (hm : Memory.wfAbove (some b) m = true) {k : Nat}
    (hk : k ≤ b) : m.read k = fillByte := by
  induction m generalizing b with
  | nil => rfl
  | cons c m ih =>
    obtain ⟨a, v⟩ := c
    rw [Memory.wfAbove_cons] at hm
    have hab : b < a := hm.1 b rfl
    rw [Memory.read_cons, if_neg (by omega)]
    exact ih hm.2.2 (by omega)

theorem Memory.eq_of_read_eq_above {b : Option Nat} {m m' : Memory} (hm : Memory.wfAbove b m = true)
    (hm' : Memory.wfAbove b m' = true) (h : ∀ k, m.read k = m'.read k) : m = m' := by
  induction m generalizing b m' with
  | nil =>
    cases m' with
    | nil => rfl
    | cons c m' =>
      obtain ⟨a, v⟩ := c
      rw [Memory.wfAbove_cons] at hm'
      exact absurd (by simpa [Memory.read_cons] using (h a).symm) hm'.2.1
  | cons c m ih =>
    obtain ⟨a, v⟩ := c
    rw [Memory.wfAbove_cons] at hm
    cases m' with
    | nil => exact absurd (by simpa [Memory.read_cons] using h a) hm.2.1
    | cons c' m' =>
      obtain ⟨a', v'⟩ := c'
      rw [Memory.wfAbove_cons] at hm'
      have haa : a = a' := by
        by_contra hne
        rcases Nat.lt_or_gt_of_ne hne with hlt | hlt
        · have := h a
          rw [Memory.read_cons, if_pos rfl, Memory.read_cons, if_neg (by omega),
            Memory.read_of_wfAbove hm'.2.2 (by omega)] at this
          exact hm.2.1 this
        · have := h a'
          rw [Memory.read_cons, if_neg (by omega), Memory.read_of_wfAbove hm.2.2 (by omega), Memory.read_cons,
            if_pos rfl] at this
          exact hm'.2.1 this.symm
      subst haa
      have hvv : v = v' := by simpa [Memory.read_cons] using h a
      subst hvv
      have hmm : m = m' := by
        refine ih hm.2.2 hm'.2.2 (fun k => ?_)
        by_cases hk : k ≤ a
        · rw [Memory.read_of_wfAbove hm.2.2 hk, Memory.read_of_wfAbove hm'.2.2 hk]
        · have := h k
          rwa [Memory.read_cons, if_neg (by omega), Memory.read_cons, if_neg (by omega)] at this
      rw [hmm]

/-- Canonical memories that read alike at every address are the same list. -/
theorem Memory.eq_of_read_eq {m m' : Memory} (hm : m.wf = true) (hm' : m'.wf = true)
    (h : ∀ k, m.read k = m'.read k) : m = m' :=
  Memory.eq_of_read_eq_above hm hm' h

/-! ### The grid -/

/-- Two bytes of the storage have different addresses (R21). -/
theorem cellAddr_inj {c : Config} {y seg y' seg' : Nat} (h : seg < c.sMax) (h' : seg' < c.sMax) :
    cellAddr c y seg = cellAddr c y' seg' ↔ y = y' ∧ seg = seg' := by
  constructor
  · intro heq
    have hd : ∀ {a b : Nat}, b < c.sMax → (a * c.sMax + b) / c.sMax = a := by
      intro a b hb
      rw [Nat.mul_comm, Nat.mul_add_div (by omega), Nat.div_eq_of_lt hb, Nat.add_zero]
    have hm : ∀ {a b : Nat}, b < c.sMax → (a * c.sMax + b) % c.sMax = b := by
      intro a b hb
      rw [Nat.mul_comm, Nat.mul_add_mod, Nat.mod_eq_of_lt hb]
    simp only [cellAddr] at heq
    exact ⟨by rw [← hd (a := y) h, heq, hd h'], by rw [← hm (a := y) h, heq, hm h']⟩
  · rintro ⟨rfl, rfl⟩; rfl

/-- A byte of the storage lies below 8 · S_MAX (R49). -/
theorem cellAddr_lt {c : Config} {y seg : Nat} (hy : y < 8) (h : seg < c.sMax) :
    cellAddr c y seg < 8 * c.sMax := by
  simp only [cellAddr]
  have : y * c.sMax ≤ 7 * c.sMax := Nat.mul_le_mul_right _ (by omega)
  omega

/-- `inSegments` picks the bytes (y, seg) with y < 8 and lo ≤ seg < hi. -/
theorem inSegments_iff {c : Config} {lo hi a : Nat} (h : hi ≤ c.sMax) :
    inSegments c lo hi a = true ↔ ∃ y seg, y < 8 ∧ lo ≤ seg ∧ seg < hi ∧ a = cellAddr c y seg := by
  simp only [inSegments, Bool.and_eq_true, decide_eq_true_eq]
  constructor
  · rintro ⟨⟨h1, h2⟩, h3⟩
    exact ⟨a / c.sMax, a % c.sMax, h1, h2, h3, by
      simp only [cellAddr]; rw [Nat.mul_comm]; exact (Nat.div_add_mod a c.sMax).symm⟩
  · rintro ⟨y, seg, hy, hlo, hhi, rfl⟩
    have hd : cellAddr c y seg / c.sMax = y := by
      simp only [cellAddr]
      rw [Nat.mul_comm, Nat.mul_add_div (by omega), Nat.div_eq_of_lt (by omega), Nat.add_zero]
    have hm : cellAddr c y seg % c.sMax = seg := by
      simp only [cellAddr]
      rw [Nat.mul_comm, Nat.mul_add_mod, Nat.mod_eq_of_lt (by omega)]
    rw [hd, hm]
    exact ⟨⟨hy, hlo⟩, hhi⟩

theorem inSegments_cellAddr {c : Config} {lo hi y seg : Nat} (h : hi ≤ c.sMax) (hs : seg < c.sMax) :
    inSegments c lo hi (cellAddr c y seg) = (decide (y < 8) && decide (lo ≤ seg) && decide (seg < hi)) := by
  rw [Bool.eq_iff_iff, inSegments_iff h]
  simp only [Bool.and_eq_true, decide_eq_true_eq]
  constructor
  · rintro ⟨y', seg', h1, h2, h3, h4⟩
    obtain ⟨rfl, rfl⟩ := (cellAddr_inj hs (by omega)).mp h4
    exact ⟨⟨h1, h2⟩, h3⟩
  · rintro ⟨⟨h1, h2⟩, h3⟩
    exact ⟨y, seg, h1, h2, h3, rfl⟩

/-- A read after a zeroing. -/
theorem read_zeroSegments (lo hi : Nat) (s : State) (a : Nat) :
    (zeroSegments lo hi s).mem.read a = if inSegments s.cfg lo hi a then fillByte else s.mem.read a := by
  have h := Memory.read_filter (fun a => !inSegments s.cfg lo hi a) s.mem a
  simp only [zeroSegments_mem]
  rw [h]
  by_cases ha : inSegments s.cfg lo hi a = true <;> simp [ha]

/-- A read after a write of byte (y', seg') (R11). -/
theorem memRead_memWrite {s : State} {y seg y' seg' : Nat} (v : Byte) (h : seg < s.cfg.sMax)
    (h' : seg' < s.cfg.sMax) :
    memRead (memWrite s y' seg' v) y seg = if y = y' ∧ seg = seg' then v else memRead s y seg := by
  simp only [memRead, memWrite_mem, memWrite_cfg, Memory.read_write]
  by_cases hc : y = y' ∧ seg = seg'
  · rw [if_pos hc, if_pos ((cellAddr_inj h h').mpr hc)]
  · rw [if_neg hc, if_neg (fun heq => hc ((cellAddr_inj h h').mp heq))]

/-- A read after a zeroing, by row and segment. -/
theorem memRead_zeroSegments {lo hi : Nat} {s : State} {y seg : Nat} (hhi : hi ≤ s.cfg.sMax)
    (h : seg < s.cfg.sMax) :
    memRead (zeroSegments lo hi s) y seg
      = if y < 8 ∧ lo ≤ seg ∧ seg < hi then fillByte else memRead s y seg := by
  simp only [memRead, zeroSegments_cfg]
  rw [read_zeroSegments, inSegments_cellAddr hhi h]
  by_cases hc : y < 8 ∧ lo ≤ seg ∧ seg < hi
  · simp [hc]
  · rw [if_neg hc, if_neg (by simpa [and_assoc] using hc)]

/-- Writing the fill byte at each address of a list is one filtering. -/
theorem foldl_erase (ks : List Nat) (m : Memory) :
    ks.foldl (fun m k => m.write k fillByte) m = m.filter (fun c => decide (c.1 ∉ ks)) := by
  induction ks generalizing m with
  | nil => simp
  | cons k ks ih =>
    rw [List.foldl_cons, ih]
    simp only [Memory.write, if_true, Memory.erase, List.filter_filter]
    congr 1
    funext c
    by_cases h : c.1 = k <;> simp [h]

/-- The zeroing is the spec's loop: `for y in 0..7: for seg in lo..hi-1: MemWrite((y, seg), 1, 0x00)` (R80, R86, R94). -/
theorem zeroSegments_eq_loop {lo hi : Nat} {s : State} (hhi : hi ≤ s.cfg.sMax) :
    (zeroSegments lo hi s).mem
      = (((List.range 8).flatMap (fun y => (List.range' lo (hi - lo)).map (cellAddr s.cfg y))).foldl
          (fun m k => m.write k fillByte) s.mem) := by
  rw [foldl_erase, zeroSegments_mem]
  congr 1
  funext c
  rw [Bool.eq_iff_iff]
  simp only [Bool.not_eq_true', decide_eq_true_eq, ← Bool.not_eq_true]
  rw [inSegments_iff hhi, not_iff_not]
  simp only [List.mem_flatMap, List.mem_range, List.mem_map, List.mem_range'_1]
  constructor
  · rintro ⟨y, seg, hy, h1, h2, h3⟩
    exact ⟨y, hy, seg, ⟨h1, by omega⟩, h3.symm⟩
  · rintro ⟨y, hy, seg, ⟨h1, h2⟩, h3⟩
    exact ⟨y, seg, hy, h1, by omega, h3.symm⟩

end Sys2Proof.Machine
end

