-- ==== Sys2Proof/Laws/FrameBuffer.lean ====
section
/-! SUPPORT. What the frame-buffer operations do, bit by bit and byte by byte. -/

namespace Sys2Proof.Machine

/-! ### Bytes -/

theorem getLsbD_one_shiftLeft (i j : Nat) :
    ((1 : Byte) <<< i).getLsbD j = (decide (j = i) && decide (j < 8)) := by
  rw [BitVec.getLsbD_shiftLeft]
  by_cases h : j < 8
  · by_cases hji : j < i
    · simp [h, hji, show j ≠ i by omega]
    · by_cases he : j = i
      · subst he; simp [h]
      · have : (1 : Byte).getLsbD (j - i) = false := by
          rw [show (1 : Byte) = BitVec.ofNat 8 1 from rfl, BitVec.getLsbD_ofNat]
          obtain ⟨m, hm⟩ : ∃ m, j - i = m + 1 := ⟨j - i - 1, by omega⟩
          rw [hm, Nat.testBit_succ]; simp
        rw [this]; simp [he]
  · simp [h]

/-- The bits of `v << i`. -/
theorem getLsbD_bitAt (v : Bool) (i j : Nat) :
    (bitAt v i).getLsbD j = (v && decide (j = i) && decide (j < 8)) := by
  unfold bitAt
  cases v
  · simp
  · rw [if_pos rfl, getLsbD_one_shiftLeft, Bool.true_and]

/-- The written bit has the new value, the seven others are kept (R84). -/
theorem getLsbD_setBit (old : Byte) (i : Nat) (v : Bool) {j : Nat} (hj : j < 8) :
    (setBit old i v).getLsbD j = if j = i then v else old.getLsbD j := by
  unfold setBit
  rw [BitVec.getLsbD_or, BitVec.getLsbD_and, BitVec.getLsbD_not, getLsbD_one_shiftLeft, getLsbD_bitAt]
  by_cases h : j = i
  · simp [h]; omega
  · simp [h, hj]

/-- A byte of a shifted row: bit i takes bit i+1, bit 7 takes the carry (R90). -/
theorem getLsbD_shiftByte (old : Byte) (carry : Bool) {j : Nat} (hj : j < 8) :
    ((old >>> 1) ||| bitAt carry 7).getLsbD j = if j = 7 then carry else old.getLsbD (j + 1) := by
  rw [BitVec.getLsbD_or, BitVec.getLsbD_ushiftRight, getLsbD_bitAt]
  by_cases h : j = 7
  · subst h; simp
  · simp [h, Nat.add_comm]

/-! ### Pixels -/

theorem pixel_eq (s : State) (x y : Nat) :
    pixel s x y = (decide (y < 8 ∧ x < 8 * s.segCount) && (memRead s y (x / 8)).getLsbD (x % 8)) := by
  simp [pixel, inBounds, segOf, bitOf, Bool.and_assoc]

theorem pixel_of_not_inBounds {s : State} {x y : Nat} (h : ¬(y < 8 ∧ x < 8 * s.segCount)) :
    pixel s x y = false := by
  rw [pixel_eq]; simp only [h, decide_false, Bool.false_and]

theorem pixel_of_inBounds {s : State} {x y : Nat} (hy : y < 8) (hx : x < 8 * s.segCount) :
    pixel s x y = (memRead s y (x / 8)).getLsbD (x % 8) := by
  rw [pixel_eq]; simp [hy, hx]

/-- `P` depends on the visible bytes of the row only. -/
theorem pixel_congr {s t : State} {y : Nat} (hS : t.segCount = s.segCount)
    (h : ∀ seg, seg < s.segCount → memRead t y seg = memRead s y seg) (x : Nat) : pixel t x y = pixel s x y := by
  rw [pixel_eq, pixel_eq, hS]
  by_cases hb : y < 8 ∧ x < 8 * s.segCount
  · rw [h (x / 8) (by omega)]
  · simp [hb]

/-- Bit i of the column byte is row i's pixel (R89). -/
theorem getLsbD_columnByte (s : State) (x i : Nat) : (columnByte s x).getLsbD i = pixel s x i := by
  have hstep : ∀ n, n ≤ 8 → ∀ j,
      ((List.range n).foldl (fun (acc : Byte) y => (acc >>> 1) ||| bitAt (pixel s x y) 7) 0).getLsbD j
        = (decide (8 - n ≤ j) && decide (j < 8) && pixel s x (j + n - 8)) := by
    intro n
    induction n with
    | zero =>
      intro _ j
      by_cases h : j < 8
      · simp [show ¬ 8 ≤ j by omega]
      · simp [h]
    | succ n ih =>
      intro hn j
      rw [List.range_succ, List.foldl_append, List.foldl_cons, List.foldl_nil]
      by_cases hj : j < 8
      · rw [getLsbD_shiftByte _ _ hj]
        by_cases h7 : j = 7
        · subst h7
          simp [show 7 + (n + 1) - 8 = n by omega]
        · rw [if_neg h7, ih (by omega)]
          simp [hj, show j + 1 < 8 by omega, show j + 1 + n - 8 = j + (n + 1) - 8 by omega,
            show (8 - n ≤ j + 1) ↔ (8 - (n + 1) ≤ j) by omega]
      · rw [BitVec.getLsbD_of_ge _ _ (by omega)]
        simp [hj]
  unfold columnByte
  rw [hstep 8 le_rfl i]
  by_cases hi : i < 8
  · simp [hi]
  · rw [pixel_of_not_inBounds (fun h => hi h.1)]
    simp [hi]

/-! ### Pixel writes -/

/-- A pixel write changes `mem` only, and there only the pixel's byte. -/
theorem writePixel_eq (x y : Nat) (v : Bool) (s : State) :
    writePixel x y v s = { s with mem := (writePixel x y v s).mem } := by
  unfold writePixel; split <;> rfl

@[simp] theorem writePixel_cfg (x y : Nat) (v : Bool) (s : State) : (writePixel x y v s).cfg = s.cfg := by
  rw [writePixel_eq]

@[simp] theorem writePixel_segCount (x y : Nat) (v : Bool) (s : State) :
    (writePixel x y v s).segCount = s.segCount := by
  rw [writePixel_eq]

theorem read_writePixel (x y : Nat) (v : Bool) (s : State) (a : Nat) :
    (writePixel x y v s).mem.read a
      = if y < 8 ∧ a = cellAddr s.cfg y (x / 8) then setBit (memRead s y (x / 8)) (x % 8) v else s.mem.read a := by
  unfold writePixel
  split
  · rename_i hy
    rw [memWrite_mem, Memory.read_write]
    simp only [hy, segOf, bitOf, true_and]
    rfl
  · rename_i hy; simp [hy]

/-- In storage, a pixel write of a row that exists changes exactly its pixel. -/
theorem pixel_writePixel {s : State} {x y : Nat} {v : Bool} (hS : s.segCount ≤ s.cfg.sMax)
    (hx : x < 8 * s.segCount) (x' y' : Nat) :
    pixel (writePixel x y v s) x' y' = if x' = x ∧ y' = y ∧ y < 8 then v else pixel s x' y' := by
  by_cases hb : y' < 8 ∧ x' < 8 * s.segCount
  · rw [pixel_of_inBounds hb.1 (by simpa using hb.2), pixel_of_inBounds hb.1 hb.2]
    simp only [memRead, writePixel_cfg, read_writePixel]
    by_cases hc : y < 8 ∧ cellAddr s.cfg y' (x' / 8) = cellAddr s.cfg y (x / 8)
    · obtain ⟨rfl, hseg⟩ := (cellAddr_inj (by omega) (by omega)).mp hc.2
      rw [if_pos hc, getLsbD_setBit _ _ _ (by omega)]
      by_cases he : x' = x
      · subst he; simp [hc.1]
      · rw [if_neg (by omega), if_neg (by simp [he])]
        rw [hseg]
    · rw [if_neg hc, if_neg]
      rintro ⟨rfl, rfl, hy⟩
      exact hc ⟨hy, rfl⟩
  · rw [pixel_of_not_inBounds (by simpa using hb), pixel_of_not_inBounds hb, if_neg]
    rintro ⟨rfl, rfl, hy⟩
    exact hb ⟨hy, hx⟩

/-! ### The shift -/

theorem shiftRow_eq (y n : Nat) (carry : Bool) (s : State) :
    (shiftRow y n carry s).1 = { s with mem := (shiftRow y n carry s).1.mem } := by
  induction n generalizing carry s with
  | zero => rfl
  | succ n ih => simp only [shiftRow]; rw [ih]; rfl

@[simp] theorem shiftRow_cfg (y n : Nat) (carry : Bool) (s : State) : (shiftRow y n carry s).1.cfg = s.cfg := by
  rw [shiftRow_eq]

@[simp] theorem shiftRow_segCount (y n : Nat) (carry : Bool) (s : State) :
    (shiftRow y n carry s).1.segCount = s.segCount := by
  rw [shiftRow_eq]

/-- The carry that leaves the row: bit 0 of its first byte, or the incoming carry if the row has no byte (R90). -/
theorem shiftRow_out (y n : Nat) (carry : Bool) (s : State) (hn : n ≤ s.cfg.sMax) :
    (shiftRow y n carry s).2 = if n = 0 then carry else (memRead s y 0).getLsbD 0 := by
  induction n generalizing carry s with
  | zero => rfl
  | succ n ih =>
    rw [shiftRow, ih _ _ (by rw [memWrite_cfg]; omega), if_neg (show ¬n + 1 = 0 by omega)]
    by_cases h : n = 0
    · subst h; rfl
    · rw [if_neg h, memRead_memWrite (y := y) (seg := 0) (seg' := n) _ (by omega) (by omega), if_neg (by omega)]

/-- The bytes after a row's loop: a byte of the row is shifted, its bit 7 fed from the byte on its right or from the
incoming carry; no other byte changes (R90). -/
theorem memRead_shiftRow (y n : Nat) (carry : Bool) (s : State) (hn : n ≤ s.cfg.sMax) {y' seg : Nat}
    (hseg : seg < s.cfg.sMax) :
    memRead (shiftRow y n carry s).1 y' seg
      = if y' = y ∧ seg < n then
          (memRead s y seg >>> 1) ||| bitAt (if seg + 1 < n then (memRead s y (seg + 1)).getLsbD 0 else carry) 7
        else memRead s y' seg := by
  induction n generalizing carry s with
  | zero => simp [shiftRow]
  | succ n ih =>
    have hread : ∀ y' g v, g < s.cfg.sMax →
        memRead (memWrite s y n v) y' g = if y' = y ∧ g = n then v else memRead s y' g :=
      fun y' g v hg => memRead_memWrite v hg (by omega)
    rw [shiftRow, ih _ _ (by rw [memWrite_cfg]; omega) (by rw [memWrite_cfg]; exact hseg), hread y' seg _ hseg]
    by_cases hy : y' = y
    · subst hy
      rcases Nat.lt_trichotomy seg n with h | h | h
      · rw [if_pos (show y' = y' ∧ seg < n from ⟨rfl, h⟩), if_pos (show y' = y' ∧ seg < n + 1 from ⟨rfl, by omega⟩),
          hread _ _ _ hseg, if_neg (by omega),
          if_pos (show seg + 1 < n + 1 by omega)]
        by_cases h1 : seg + 1 < n
        · rw [if_pos h1, hread _ _ _ (by omega), if_neg (by omega)]
        · rw [if_neg h1, show n = seg + 1 by omega]
      · subst h
        rw [if_neg (by omega), if_pos ⟨rfl, rfl⟩, if_pos ⟨rfl, by omega⟩, if_neg (by omega)]
      · rw [if_neg (by omega), if_neg (by omega), if_neg (by omega)]
    · simp [hy]

/-- A row's loop changes no address but those of its bytes. -/
theorem read_shiftRow_other (y n : Nat) (carry : Bool) (s : State) (a : Nat)
    (ha : ∀ seg, seg < n → a ≠ cellAddr s.cfg y seg) : (shiftRow y n carry s).1.mem.read a = s.mem.read a := by
  induction n generalizing carry s with
  | zero => rfl
  | succ n ih =>
    rw [shiftRow, ih _ _ (fun seg h => by simpa using ha seg (by omega)), memWrite_mem,
      Memory.read_write_other _ _ (ha n (by omega))]

theorem shiftRows_eq (c : Byte) (n : Nat) (s : State) :
    (shiftRows c n s).1 = { s with mem := (shiftRows c n s).1.mem } := by
  induction n with
  | zero => rfl
  | succ n ih => simp only [shiftRows]; rw [shiftRow_eq, ih]

@[simp] theorem shiftRows_cfg (c : Byte) (n : Nat) (s : State) : (shiftRows c n s).1.cfg = s.cfg := by
  rw [shiftRows_eq]

@[simp] theorem shiftRows_segCount (c : Byte) (n : Nat) (s : State) :
    (shiftRows c n s).1.segCount = s.segCount := by
  rw [shiftRows_eq]

/-- The bytes after the shift of rows 0..n−1 (R90). -/
theorem memRead_shiftRows (c : Byte) (n : Nat) (s : State) (hS : s.segCount ≤ s.cfg.sMax) {y seg : Nat}
    (hseg : seg < s.cfg.sMax) :
    memRead (shiftRows c n s).1 y seg
      = if y < n ∧ seg < s.segCount then
          (memRead s y seg >>> 1) |||
            bitAt (if seg + 1 < s.segCount then (memRead s y (seg + 1)).getLsbD 0 else c.getLsbD y) 7
        else memRead s y seg := by
  induction n with
  | zero => simp [shiftRows]
  | succ n ih =>
    rw [shiftRows, memRead_shiftRow _ _ _ _ (by simpa using hS) (by simpa using hseg)]
    by_cases hy : y = n
    · subst hy
      have hbelow : ∀ seg, seg < s.cfg.sMax → memRead (shiftRows c y s).1 y seg = memRead s y seg := by
        intro seg hseg
        have hother : ∀ m ≤ y, memRead (shiftRows c m s).1 y seg = memRead s y seg := by
          intro m hm
          induction m with
          | zero => rfl
          | succ m ihm =>
            rw [shiftRows, memRead_shiftRow _ _ _ _ (by simpa using hS) (by simpa using hseg), if_neg (by omega),
              ihm (by omega)]
        exact hother y le_rfl
      by_cases h : seg < s.segCount
      · rw [if_pos (show y = y ∧ seg < s.segCount from ⟨rfl, h⟩),
          if_pos (show y < y + 1 ∧ seg < s.segCount from ⟨by omega, h⟩), hbelow seg hseg]
        by_cases h1 : seg + 1 < s.segCount
        · rw [if_pos h1, if_pos h1, hbelow (seg + 1) (by omega)]
        · rw [if_neg h1, if_neg h1]
      · rw [if_neg (by simpa using h), if_neg (by omega), hbelow seg hseg]
    · rw [if_neg (by omega), ih]
      by_cases h : y < n ∧ seg < s.segCount
      · rw [if_pos h, if_pos (show y < n + 1 ∧ seg < s.segCount from ⟨by omega, h.2⟩)]
      · rw [if_neg h, if_neg (by omega)]

/-- The outgoing column byte of rows 0..n−1: the first pixel of each row, or the incoming bit if there is no byte
(R90). -/
theorem getLsbD_shiftRows_out (c : Byte) (n : Nat) (s : State) (hS : s.segCount ≤ s.cfg.sMax) (i : Nat) :
    (shiftRows c n s).2.getLsbD i
      = (decide (i < n) && decide (i < 8) &&
          if s.segCount = 0 then c.getLsbD i else (memRead s i 0).getLsbD 0) := by
  induction n with
  | zero => simp [shiftRows]
  | succ n ih =>
    rw [shiftRows, BitVec.getLsbD_or, ih, getLsbD_bitAt, shiftRow_out _ _ _ _ (by simpa using hS)]
    by_cases hi : i = n
    · subst hi
      by_cases h0 : s.segCount = 0
      · simp [h0, Bool.and_comm]
      · have : memRead (shiftRows c i s).1 i 0 = memRead s i 0 := by
          rw [memRead_shiftRows _ _ _ hS (by omega), if_neg (by omega)]
        simp [h0, this, Bool.and_comm]
    · simp [hi, show i < n + 1 ↔ i < n by omega]

/-- The shift changes no address but those of visible bytes. -/
theorem read_shiftRows_other (c : Byte) (n : Nat) (hn : n ≤ 8) (s : State) (a : Nat) (ha : ¬VisibleAddr s a) :
    (shiftRows c n s).1.mem.read a = s.mem.read a := by
  induction n with
  | zero => rfl
  | succ n ih =>
    rw [shiftRows, read_shiftRow_other, ih (by omega)]
    intro seg hseg heq
    exact ha ⟨n, seg, by omega, by simpa using hseg, by simpa using heq⟩

end Sys2Proof.Machine
end

