-- ==== Sys2Proof/Laws/PerInstr.lean ====
section
/-! SUPPORT. Family EncodeOp: the opcode field of a command's word is the opcode of its row of R64. -/

namespace Sys2Proof.Laws.EncodeOp

/-- The opcodes of R64. -/
def opcodeOf : Instr → BitVec 4
  | .construct _ => 0x1
  | .getPixel _ _ => 0x2
  | .setPixel _ _ _ => 0x3
  | .setPixelExp _ _ _ => 0x4
  | .getColumn _ => 0x5
  | .shiftLeft _ => 0x6
  | .rawRead _ _ => 0x7
  | .clear => 0x8
  | .encInit => 0x9
  | .encRefresh => 0xA
  | .readSegcount => 0xB

def Statement (i : Instr) : Prop := opField (encode i) = opcodeOf i

theorem construct (w : Nat) : Statement (.construct w) := opField_packFields _ _ _ _
theorem getPixel (x y : Nat) : Statement (.getPixel x y) := opField_packFields _ _ _ _
theorem setPixel (x y : Nat) (v : Bool) : Statement (.setPixel x y v) := opField_packFields _ _ _ _
theorem setPixelExp (x y : Nat) (v : Bool) : Statement (.setPixelExp x y v) := opField_packFields _ _ _ _
theorem getColumn (x : Nat) : Statement (.getColumn x) := opField_packFields _ _ _ _
theorem shiftLeft (c : Byte) : Statement (.shiftLeft c) := opField_packFields _ _ _ _
theorem rawRead (y seg : Nat) : Statement (.rawRead y seg) := opField_packFields _ _ _ _
theorem clear : Statement .clear := opField_packFields _ _ _ _
theorem encInit : Statement .encInit := opField_packFields _ _ _ _
theorem encRefresh : Statement .encRefresh := opField_packFields _ _ _ _
theorem readSegcount : Statement .readSegcount := opField_packFields _ _ _ _

end Sys2Proof.Laws.EncodeOp
end

