-- ==== Sys2Proof/Laws/Step.lean ====
section
/-! SUPPORT. What `exec` and `step` can do, said once: later proofs take these apart instead of the definitions. -/

namespace Sys2Proof.Machine

/-! ### One lemma per command: every way it ends -/

theorem execConstruct_cases (w : Nat) (s : State) :
    (w % 8 ≠ 0 ∧ exec (.construct w) s = .next (withResponse 2 0 s)) ∨
    (w % 8 = 0 ∧ s.cfg.sMax < w / 8 ∧ exec (.construct w) s = .next (withResponse 3 0 s)) ∨
    (w % 8 = 0 ∧ w / 8 ≤ s.cfg.sMax ∧ exec (.construct w) s = .next (withResponse 0 0
      { s with segCount := w / 8, mem := s.mem.filter (fun cell => !inSegments s.cfg 0 (w / 8) cell.1) })) := by
  by_cases h : w % 8 = 0
  · by_cases h' : w / 8 ≤ s.cfg.sMax
    · exact .inr (.inr ⟨h, h', by simp [exec, execConstruct, h, Nat.not_lt.mpr h']; rfl⟩)
    · exact .inr (.inl ⟨h, not_le.mp h', by simp [exec, execConstruct, h, not_le.mp h']; rfl⟩)
  · exact .inl ⟨h, by simp [exec, execConstruct, h]; rfl⟩

theorem execGetPixel_eq (x y : Nat) (s : State) :
    exec (.getPixel x y) s = .next (withResponse 0 (pixelData (pixel s x y)) s) := rfl

theorem execSetPixel_cases (x y : Nat) (v : Bool) (s : State) :
    ((y < 8 ∧ x < 8 * s.segCount) ∧
      exec (.setPixel x y v) s = .next (withResponse 0 0 { s with mem := (writePixel x y v s).mem })) ∨
    (¬(y < 8 ∧ x < 8 * s.segCount) ∧ exec (.setPixel x y v) s = .next (withResponse 0 0 s)) := by
  by_cases h : y < 8 ∧ x < 8 * s.segCount
  · refine .inl ⟨h, ?_⟩
    have : inBounds s x y = true := by simp [inBounds, h]
    simp only [exec, execSetPixel, this, if_true]
    rw [writePixel_eq]; rfl
  · refine .inr ⟨h, ?_⟩
    have : inBounds s x y = false := by simpa [inBounds] using h
    simp [exec, execSetPixel, this]; rfl

theorem execSetPixelExp_cases (x y : Nat) (v : Bool) (s : State) :
    (x / 8 < s.segCount ∧
      exec (.setPixelExp x y v) s = .next (withResponse 0 0 { s with mem := (writePixel x y v s).mem })) ∨
    (s.segCount ≤ x / 8 ∧ s.cfg.sMax < x / 8 + 1 ∧
      exec (.setPixelExp x y v) s = .next (withResponse 3 0 s)) ∨
    (s.segCount ≤ x / 8 ∧ x / 8 + 1 ≤ s.cfg.sMax ∧
      exec (.setPixelExp x y v) s = .next (withResponse 0 0
        { s with segCount := x / 8 + 1, mem := (writePixel x y v (growTo x s)).mem })) := by
  by_cases h : x / 8 < s.segCount
  · refine .inl ⟨h, ?_⟩
    simp only [exec, execSetPixelExp, segOf, h, if_true]
    rw [writePixel_eq]; rfl
  · by_cases h' : x / 8 + 1 ≤ s.cfg.sMax
    · refine .inr (.inr ⟨by omega, h', ?_⟩)
      simp only [exec, execSetPixelExp, segOf, h, if_false, show ¬x / 8 + 1 > s.cfg.sMax by omega]
      rw [writePixel_eq]; rfl
    · refine .inr (.inl ⟨by omega, by omega, ?_⟩)
      simp only [exec, execSetPixelExp, segOf, h, if_false, show x / 8 + 1 > s.cfg.sMax by omega, if_true]
      rfl

theorem execGetColumn_eq (x : Nat) (s : State) :
    exec (.getColumn x) s = .next (withResponse 0 ((columnByte s x).setWidth 16) s) := rfl

theorem execShiftLeft_eq (c : Byte) (s : State) :
    exec (.shiftLeft c) s = .next (withResponse 0 ((shiftRows c 8 s).2.setWidth 16)
      { s with mem := (shiftRows c 8 s).1.mem }) := by
  simp only [exec, execShiftLeft]
  rw [shiftRows_eq]; rfl

theorem execRawRead_eq (y seg : Nat) (s : State) :
    exec (.rawRead y seg) s = .next (withResponse 0 ((rawByte s y seg).setWidth 16) s) := rfl

theorem execClear_eq (s : State) :
    exec .clear s = .next (withResponse 0 0
      { s with mem := s.mem.filter (fun cell => !inSegments s.cfg 0 s.segCount cell.1) }) := rfl

theorem execReadSegcount_eq (s : State) :
    exec .readSegcount s = .next (withResponse 0 (BitVec.ofNat 16 s.segCount) s) := rfl

/-- An encoder command is the run of its plan. -/
theorem execEncoder_eq {i : Instr} (h : i = .encInit ∨ i = .encRefresh) (s : State) :
    exec i s = finishTransmit (transmitAll (planOf i s) s) := by
  rcases h with rfl | rfl <;> rfl

/-! ### What any command can change -/

/-- The shape of every next state of `exec`: a response, possibly a new `mem` and `S`, and for the encoder commands the
transport's side. -/
theorem exec_next_shape {i : Instr} {s t : State} (h : exec i s = .next t) :
    (∃ st d m n, t = withResponse (statusCode st) d { s with mem := m, segCount := n }) ∨
    ((i = .encInit ∨ i = .encRefresh) ∧ ∃ st script sent, (st = .ok ∨ st = .ioError) ∧
      t = withResponse (statusCode st) 0 { s with seq := .idle, txScript := script, txLog := s.txLog ++ sent }) := by
  cases i with
  | construct w =>
    rcases execConstruct_cases w s with ⟨_, e⟩ | ⟨_, _, e⟩ | ⟨_, _, e⟩ <;> rw [e] at h <;> cases h
    · exact .inl ⟨.invalidArgument, 0, s.mem, s.segCount, rfl⟩
    · exact .inl ⟨.capacity, 0, s.mem, s.segCount, rfl⟩
    · exact .inl ⟨.ok, 0, _, _, rfl⟩
  | getPixel x y => rw [execGetPixel_eq] at h; cases h; exact .inl ⟨.ok, _, s.mem, s.segCount, rfl⟩
  | setPixel x y v =>
    rcases execSetPixel_cases x y v s with ⟨_, e⟩ | ⟨_, e⟩ <;> rw [e] at h <;> cases h
    · exact .inl ⟨.ok, 0, _, s.segCount, rfl⟩
    · exact .inl ⟨.ok, 0, s.mem, s.segCount, rfl⟩
  | setPixelExp x y v =>
    rcases execSetPixelExp_cases x y v s with ⟨_, e⟩ | ⟨_, _, e⟩ | ⟨_, _, e⟩ <;> rw [e] at h <;> cases h
    · exact .inl ⟨.ok, 0, _, s.segCount, rfl⟩
    · exact .inl ⟨.capacity, 0, s.mem, s.segCount, rfl⟩
    · exact .inl ⟨.ok, 0, _, _, rfl⟩
  | getColumn x => rw [execGetColumn_eq] at h; cases h; exact .inl ⟨.ok, _, s.mem, s.segCount, rfl⟩
  | shiftLeft c => rw [execShiftLeft_eq] at h; cases h; exact .inl ⟨.ok, _, _, s.segCount, rfl⟩
  | rawRead y seg => rw [execRawRead_eq] at h; cases h; exact .inl ⟨.ok, _, s.mem, s.segCount, rfl⟩
  | clear => rw [execClear_eq] at h; cases h; exact .inl ⟨.ok, 0, _, s.segCount, rfl⟩
  | encInit =>
    rw [execEncoder_eq (.inl rfl)] at h
    rcases finishTransmit_cases (planOf .encInit s) s with ⟨_, e⟩ | ⟨n, _, _, _, e⟩ | ⟨_, _, _, _, e⟩ <;> rw [e] at h <;>
      cases h
    · exact .inr ⟨.inl rfl, .ok, _, _, .inl rfl, rfl⟩
    · exact .inr ⟨.inl rfl, .ioError, _, _, .inr rfl, by rw [List.append_assoc]; rfl⟩
  | encRefresh =>
    rw [execEncoder_eq (.inr rfl)] at h
    rcases finishTransmit_cases (planOf .encRefresh s) s with ⟨_, e⟩ | ⟨n, _, _, _, e⟩ | ⟨_, _, _, _, e⟩ <;>
      rw [e] at h <;> cases h
    · exact .inr ⟨.inr rfl, .ok, _, _, .inl rfl, rfl⟩
    · exact .inr ⟨.inr rfl, .ioError, _, _, .inr rfl, by rw [List.append_assoc]; rfl⟩
  | readSegcount => rw [execReadSegcount_eq] at h; cases h; exact .inl ⟨.ok, _, s.mem, s.segCount, rfl⟩

/-! ### The step -/

/-- Everything a step can do that gives a next state. -/
theorem step_cases {s t : State} (h : step s = .next t) :
    s.cfg.Legal ∧
      ((s.hostIn = [] ∧ t = s) ∨
       (∃ w later, s.hostIn = .command w :: later ∧ s.busy = true ∧ t = s) ∨
       (∃ w later i, s.hostIn = .command w :: later ∧ s.busy = false ∧ decode w = .ok i ∧
          exec i (accept { s with hostIn := later }) = .next t) ∨
       (∃ w later e, s.hostIn = .command w :: later ∧ s.busy = false ∧ decode w = .error e ∧
          t = withResponse 1 0 { s with hostIn := later }) ∨
       (∃ later, s.hostIn = .rst :: later ∧ t = hardReset { s with hostIn := later }) ∨
       (∃ w k later, s.hostIn = .commandCutByRst w k :: later ∧ s.busy = true ∧
          t = hardReset { s with hostIn := later }) ∨
       (∃ w k later, s.hostIn = .commandCutByRst w k :: later ∧ s.busy = false ∧
          t = cutWord w k (accept { s with hostIn := later }))) := by
  unfold step stepHost at h
  split at h
  case isFalse => cases h
  case isTrue hlegal =>
    refine ⟨hlegal, ?_⟩
    split at h
    · rename_i hin; cases h; exact .inl ⟨hin, rfl⟩
    · rename_i e later hin
      cases e with
      | command w =>
        cases hb : s.busy with
        | true =>
          simp only [stepEvent, cmdReady, hb, Bool.not_true, Bool.false_eq_true, if_false] at h; cases h
          exact .inr (.inl ⟨w, later, hin, rfl, rfl⟩)
        | false =>
          simp only [stepEvent, cmdReady, hb, Bool.not_false, if_true, runWord] at h
          split at h
          · rename_i i hd
            exact .inr (.inr (.inl ⟨w, later, i, hin, rfl, hd, h⟩))
          · rename_i e hd
            cases h
            exact .inr (.inr (.inr (.inl ⟨w, later, e, hin, rfl, hd, rfl⟩)))
      | rst => cases h; exact .inr (.inr (.inr (.inr (.inl ⟨later, hin, rfl⟩))))
      | commandCutByRst w k =>
        cases hb : s.busy with
        | true =>
          simp only [stepEvent, cmdReady, hb, Bool.not_true, Bool.false_eq_true, if_false] at h; cases h
          exact .inr (.inr (.inr (.inr (.inr (.inl ⟨w, k, later, hin, rfl, rfl⟩)))))
        | false =>
          simp only [stepEvent, cmdReady, hb, Bool.not_false, if_true] at h; cases h
          exact .inr (.inr (.inr (.inr (.inr (.inr ⟨w, k, later, hin, rfl, rfl⟩)))))

/-- A ready DCFB with a word that decodes runs the command it decodes to (R65, R70). -/
theorem step_command {s : State} {w : Word} {later : List HostEvent} {i : Instr} (h : Ready s w later)
    (hd : decode w = .ok i) : step s = exec i (accept { s with hostIn := later }) := by
  obtain ⟨hl, hb, hin⟩ := h
  unfold step stepHost
  rw [if_pos hl]
  simp only [hin, stepEvent, cmdReady, hb, Bool.not_false, if_true, runWord, hd]

/-- A ready DCFB with a word that selects no command ends it with ILLEGAL (R69). -/
theorem step_illegal {s : State} {w : Word} {later : List HostEvent} {e : Illegal} (h : Ready s w later)
    (hd : decode w = .error e) : step s = .next (withResponse 1 0 { s with hostIn := later }) := by
  obtain ⟨hl, hb, hin⟩ := h
  unfold step stepHost
  rw [if_pos hl]
  simp only [hin, stepEvent, cmdReady, hb, Bool.not_false, if_true, runWord, hd]
  rw [← hb]; rfl

end Sys2Proof.Machine
end

