-- ==== Sys2Proof/Tests/Slice0.lean ====
section
/-! SUPPORT. Tests and witnesses. Expected results are those of spec/95_test_vectors.md (named E<n>, L2 and P<n> there) and
of the encodings of R64, not the model's own answers. A `witness_` theorem shows a concrete state and operands that meet
the hypotheses of the obligation it is named after. -/

open Sys2Proof Sys2Proof.Machine

namespace Sys2Proof.Tests

set_option maxRecDepth 20000

/-! ### Helpers -/

/-- A DCFB with capacity, chain length and `S` as given, the bytes (y, seg, value) listed, every other byte 0x00. -/
def buffer (sMax nSeg segs : Nat) (bytes : List (Nat × Nat × Byte)) : State :=
  bytes.foldl (fun s b => memWrite s b.1 b.2.1 b.2.2)
    { State.resetWith { Config.default with sMax := sMax, nSeg := nSeg } with segCount := segs }

/-- Status, data, `S` and array after the command with word `w`. -/
def after (w : Word) (s : State) : Option (Nat × Nat × Nat × Memory) :=
  match step (presentWord w s) with
  | .next t => some (t.rspStatus.toNat, t.rspData.toNat, t.segCount, t.mem)
  | .fault _ => none
  | .refused _ => none

/-- What 95_test_vectors lists after a command: status, data, `S` and the bytes. -/
def shown (status data sMax segs : Nat) (bytes : List (Nat × Nat × Byte)) : Option (Nat × Nat × Nat × Memory) :=
  some (status, data, segs, (buffer sMax 1 segs bytes).mem)

/-- Status and transactions of the command with word `w`, the transport's next answers being `answers` and then OK. -/
def wire (w : Word) (answers : List TxAnswer) (s : State) : Option (Nat × List (List Byte)) :=
  match step (presentWord w { s with txScript := answers }) with
  | .next t => some (t.rspStatus.toNat, t.txLog.map TxRecord.bytes)
  | .fault _ => none
  | .refused _ => none

/-- A ready DCFB with the events given pending. -/
def pending (events : List HostEvent) (s : State) : State := { s with hostIn := events }

/-! ### Operands that do not fit (R9, R72) -/

theorem test_wf_construct : Instr.wellFormed (.construct 65536) = false := by decide
theorem test_wf_getPixel_x : Instr.wellFormed (.getPixel 65536 0) = false := by decide
theorem test_wf_getPixel_y : Instr.wellFormed (.getPixel 0 16) = false := by decide
theorem test_wf_setPixel_x : Instr.wellFormed (.setPixel 65536 0 true) = false := by decide
theorem test_wf_setPixel_y : Instr.wellFormed (.setPixel 0 16 true) = false := by decide
theorem test_wf_setPixelExp_x : Instr.wellFormed (.setPixelExp 65536 0 false) = false := by decide
theorem test_wf_setPixelExp_y : Instr.wellFormed (.setPixelExp 0 16 false) = false := by decide
theorem test_wf_getColumn : Instr.wellFormed (.getColumn 65536) = false := by decide
theorem test_wf_rawRead_y : Instr.wellFormed (.rawRead 16 0) = false := by decide
theorem test_wf_rawRead_seg : Instr.wellFormed (.rawRead 0 65536) = false := by decide

/-! ### Decoding, words written out from the patterns of R64 -/

theorem test_decode_construct : decode 0b0001_0000_00000000_0000000000011000 = .ok (.construct 24) := by rfl
theorem test_decode_getPixel : decode 0b0010_0111_00000000_0000000000001111 = .ok (.getPixel 15 7) := by rfl
theorem test_decode_setPixel_on : decode 0b0011_1111_00000001_1111111111111111 = .ok (.setPixel 65535 15 true) := by rfl
theorem test_decode_setPixel_off : decode 0b0011_0010_00000000_0000000000001001 = .ok (.setPixel 9 2 false) := by rfl
theorem test_decode_setPixelExp : decode 0b0100_1001_00000001_0000000000011111 = .ok (.setPixelExp 31 9 true) := by rfl
theorem test_decode_getColumn : decode 0b0101_0000_00000000_0000000000010000 = .ok (.getColumn 16) := by rfl
theorem test_decode_shiftLeft : decode 0b0110_0000_10100101_0000000000000000 = .ok (.shiftLeft 0xA5) := by rfl
theorem test_decode_rawRead : decode 0b0111_0011_00000000_0000000000000010 = .ok (.rawRead 3 2) := by rfl
theorem test_decode_clear : decode 0b1000_0000_00000000_0000000000000000 = .ok .clear := by rfl
theorem test_decode_encInit : decode 0b1001_0000_00000000_0000000000000000 = .ok .encInit := by rfl
theorem test_decode_encRefresh : decode 0b1010_0000_00000000_0000000000000000 = .ok .encRefresh := by rfl
theorem test_decode_readSegcount : decode 0b1011_0000_00000000_0000000000000000 = .ok .readSegcount := by rfl

/-- L2, illegal words: each of them ends with ILLEGAL and leaves the buffer alone. -/
theorem test_illegal_words :
    [0x00000000, 0xC0000000, 0xF0000000, 0x11000008, 0x1100000C, 0x22010003, 0x30020003, 0x51000000, 0x60010001,
      0x80000001, 0xA0000100].all (fun w => after w (buffer 16 2 1 []) == shown 1 0 16 1 []) = true := by decide

/-! ### Assembler lines, words from 95_test_vectors -/

theorem test_assemble_setpxe : assembleWord "setpxe 20, 3, 1".toList = some 0x43010014 := by decide
theorem test_assemble_shl_hex : assembleWord "shl 0xA5".toList = some 0x60A50000 := by decide
theorem test_assemble_on : assembleWord "on 9, 2".toList = some 0x32010009 := by decide
theorem test_assemble_refresh : assembleWord "enc.refresh".toList = some 0xA0000000 := by decide
theorem test_assemble_error : assembleWord "getpx 0, 16".toList = none := by decide
/-- Blanks around the mnemonic and the operands do not count (log entry 16); "1 6" is no decimal operand (R72). -/
theorem test_assemble_blanks : assembleWord "  construct  16 ".toList = some 0x10000010 ∧
    assembleWord "construct 1 6".toList = none := ⟨by decide, by decide⟩

/-! ### One step of each command (95_test_vectors L2) -/

theorem test_construct_blank : after 0x10000010 (buffer 16 2 1 [(2, 0, 0x5A)]) = shown 0 0 16 2 [] := by decide
/-- `construct 65535` with S_MAX = 4 is both malformed and too large: INVALID_ARGUMENT comes first. -/
theorem test_construct_errors : after 0x1000FFFF (buffer 4 1 0 []) = shown 2 0 4 0 [] ∧
    after 0x10000028 (buffer 4 1 0 []) = shown 3 0 4 0 [] := ⟨by decide, by decide⟩
theorem test_getPixel_on : after 0x22000009 (buffer 16 2 2 [(2, 1, 0x02)]) = shown 0 1 16 2 [(2, 1, 0x02)] := by decide
theorem test_getPixel_outside : after 0x27000010 (buffer 16 2 2 [(7, 1, 0x80)]) = shown 0 0 16 2 [(7, 1, 0x80)] ∧
    after 0x2800000F (buffer 16 2 2 [(7, 1, 0x80)]) = shown 0 0 16 2 [(7, 1, 0x80)] := ⟨by decide, by decide⟩
theorem test_setPixel_off : after 0x32000009 (buffer 16 2 2 [(2, 1, 0xFF)]) = shown 0 0 16 2 [(2, 1, 0xFD)] := by decide
theorem test_setPixel_outside : after 0x30010010 (buffer 16 2 2 []) = shown 0 0 16 2 [] ∧
    after 0x38010003 (buffer 16 2 2 []) = shown 0 0 16 2 [] := ⟨by decide, by decide⟩
theorem test_setPixelExp_grows : after 0x43010014 (buffer 16 2 0 []) = shown 0 0 16 3 [(3, 2, 0x10)] ∧
    after 0x4901001F (buffer 16 2 0 []) = shown 0 0 16 4 [] := ⟨by decide, by decide⟩
/-- Growth zeroes what storage held beyond `S`; the last segment fits and the next does not (S_MAX = 4). -/
theorem test_setPixelExp_limit : after 0x4001001F (buffer 4 1 1 [(5, 2, 0x77)]) = shown 0 0 4 4 [(0, 3, 0x80)] ∧
    after 0x40010020 (buffer 4 1 1 []) = shown 3 0 4 1 [] := ⟨by decide, by decide⟩
theorem test_getColumn : after 0x50000002 (buffer 16 2 2 [(1, 0, 4), (3, 0, 4), (6, 0, 4)])
    = shown 0 0x4A 16 2 [(1, 0, 4), (3, 0, 4), (6, 0, 4)] := by decide
theorem test_shiftLeft : after 0x60FF0000 (buffer 16 2 2 [(0, 0, 0x01), (0, 1, 0x80), (3, 0, 0x02)])
    = shown 0 1 16 2 [(0, 1, 0xC0), (1, 1, 0x80), (2, 1, 0x80), (3, 0, 0x01), (3, 1, 0x80), (4, 1, 0x80), (5, 1, 0x80),
        (6, 1, 0x80), (7, 1, 0x80)] := by decide
theorem test_shiftLeft_empty : after 0x60A50000 (buffer 16 2 0 []) = shown 0 0xA5 16 0 [] := by decide
theorem test_rawRead : after 0x77000000 (buffer 16 2 2 [(7, 0, 0xC3)]) = shown 0 0xC3 16 2 [(7, 0, 0xC3)] ∧
    after 0x78000000 (buffer 16 2 2 [(7, 0, 0xC3)]) = shown 0 0 16 2 [(7, 0, 0xC3)] := ⟨by decide, by decide⟩
theorem test_clear : after 0x80000000 (buffer 16 2 3 [(0, 0, 0xFF), (7, 2, 0x81)]) = shown 0 0 16 3 [] := by decide
theorem test_readSegcount : after 0xB0000000 (buffer 16 2 3 []) = shown 0 3 16 3 [] := by decide
theorem test_encInit : wire 0x90000000 [] (buffer 16 2 2 []) = some (0,
    [[0x0F, 0, 0x0F, 0], [0x0C, 1, 0x0C, 1], [0x0A, 0, 0x0A, 0], [0x0B, 7, 0x0B, 7]]) := by decide
theorem test_encInit_fail : wire 0x90000000 [.ok, .ok, .fail] (buffer 16 2 2 []) = some (4,
    [[0x0F, 0, 0x0F, 0], [0x0C, 1, 0x0C, 1], [0x0A, 0, 0x0A, 0]]) := by decide
theorem test_encRefresh : wire 0xA0000000 [] (buffer 16 2 2 [(2, 1, 0x02)]) = some (0,
    [[0, 0, 1, 0], [1, 0, 0, 0], [0, 0, 2, 0], [2, 0, 0, 0], [0, 0, 3, 0], [3, 2, 0, 0], [0, 0, 4, 0], [4, 0, 0, 0],
     [0, 0, 5, 0], [5, 0, 0, 0], [0, 0, 6, 0], [6, 0, 0, 0], [0, 0, 7, 0], [7, 0, 0, 0], [0, 0, 8, 0], [8, 0, 0, 0]]) := by
  decide
/-- Three segments, FAIL on transaction 2: R125's order of the targets and of the slots. -/
theorem test_encRefresh_fail : wire 0xA0000000 [.ok, .ok, .fail] (buffer 16 3 3 [(0, 0, 0xAA), (0, 1, 0x55), (0, 2, 0x0F)])
    = some (4, [[0, 0, 0, 0, 1, 0xAA], [0, 0, 1, 0x55, 0, 0], [1, 0x0F, 0, 0, 0, 0]]) := by decide

/-! ### The host's side (R65, R160, R161), the dump (R152) and the port (R67) -/

theorem test_refresh_cut_by_rst :
    step (pending [.commandCutByRst 0x90000000 1, .rst] (buffer 16 1 2 [])) = .next { buffer 16 1 0 [] with
      hostIn := [.rst], txLog := [⟨[0x0F, 0], .ok⟩, ⟨[0x0C, 1], .cut⟩] } := by rfl
theorem test_busy_waits :
    step { pending [.command 0xB0000000] (buffer 16 2 2 []) with busy := true }
      = .next { pending [.command 0xB0000000] (buffer 16 2 2 []) with busy := true } := by rfl
theorem test_fetch_word : (match step (State.reset.withFetchWord 32 0x10000010) with
    | .next t => t.segCount | .fault _ => 0 | .refused _ => 0) = 2 := by decide
theorem test_debugDump : debugDump (buffer 16 1 1 [(1, 0, 0x81)])
    = "--------\nX------X\n--------\n--------\n--------\n--------\n--------\n--------\n".toList := by decide
theorem test_txBeats : txBeats [0x0F, 0x00] = [(0x0F, false), (0x00, true)] := by decide

/-! ### Witnesses for the statements with hypotheses -/

theorem witness_DecodeOfEncodeGivesTheCommand :
    ([.construct 65535, .getPixel 65535 15, .setPixel 65535 15 true, .setPixelExp 0 15 false, .getColumn 65535,
      .shiftLeft 0xFF, .rawRead 15 65535, .clear, .encInit, .encRefresh, .readSegcount] : List Instr).all
      Instr.wellFormed = true := by decide

theorem witness_EncodeOfDecodeGivesTheWord : decode 0x3F01FFFF = .ok (.setPixel 65535 15 true) := by rfl

/-- A DCFB that is ready for any word; every way of a word's being illegal, at the ends of its range; legal words. -/
theorem witness_IllegalWordsEndIllegalAndChangeNothing :
    (∀ w, Ready (pending [.command w] (buffer 8192 8191 1 [])) w []) ∧
    ((IllegalFields 0x00000000 ∧ IllegalFields 0xC0000000 ∧ IllegalFields 0xFFFFFFFF) ∧
      (IllegalFields 0x11000000 ∧ IllegalFields 0x1FFF0000 ∧ IllegalFields 0x50010000) ∧
      (IllegalFields 0x20010000 ∧ IllegalFields 0x70FF0000) ∧ (IllegalFields 0x30020000 ∧ IllegalFields 0x40FF0000) ∧
      (IllegalFields 0x61000000 ∧ IllegalFields 0x60000001) ∧
      (IllegalFields 0x80010000 ∧ IllegalFields 0x91000000 ∧ IllegalFields 0xB0008000)) ∧
    (¬IllegalFields 0x1000FFFF ∧ ¬IllegalFields 0x3F01FFFF ∧ ¬IllegalFields 0x60FF0000 ∧ ¬IllegalFields 0xB0000000) :=
  ⟨fun _ => ⟨(by decide : (buffer 8192 8191 1 []).cfg.Legal), rfl, rfl⟩,
    ⟨⟨by decide, by decide, by decide⟩, ⟨by decide, by decide, by decide⟩, ⟨by decide, by decide⟩,
      ⟨by decide, by decide⟩, ⟨by decide, by decide⟩, ⟨by decide, by decide, by decide⟩⟩,
    by decide, by decide, by decide, by decide⟩

theorem witness_StepRunsTheDecodedCommand :
    Ready (pending [.command 0x60FF0000] (buffer 1 1 1 [])) 0x60FF0000 [] ∧ decode 0x60FF0000 = .ok (.shiftLeft 0xFF) :=
  ⟨by decide, rfl⟩

theorem witness_BusyAcceptsNoCommand :
    let s : State := { pending [.command 0x80000000] (buffer 8192 8191 8192 []) with busy := true }
    s.cfg.Legal ∧ s.busy = true ∧ s.hostIn = .command 0x80000000 :: [] := by decide

theorem witness_NothingRunsWithoutTheHost : State.reset.cfg.Legal ∧ State.reset.hostIn = [] := by decide

/-- Each bound of R8 just missed. -/
theorem witness_IllegalConfigurationIsRefused :
    ∀ p ∈ ([(0, 1), (8193, 1), (4, 0), (4, 5), (8192, 8192)] : List (Nat × Nat)),
      ¬(1 ≤ (buffer p.1 p.2 0 []).cfg.sMax ∧ (buffer p.1 p.2 0 []).cfg.sMax ≤ 8192 ∧ 1 ≤ (buffer p.1 p.2 0 []).cfg.nSeg ∧
        (buffer p.1 p.2 0 []).cfg.nSeg ≤ (buffer p.1 p.2 0 []).cfg.sMax ∧ (buffer p.1 p.2 0 []).cfg.nSeg ≤ 8191) := by
  decide

theorem witness_ResetGivesTheResetValues :
    let s : State := { pending [.rst] (buffer 4 2 4 [(0, 3, 0x80)]) with busy := true }
    s.cfg.Legal ∧ s.hostIn = .rst :: [] := by decide

/-- The last transaction of a refresh cut, every one before it answered OK; and a cut with none answered. -/
theorem witness_ResetDuringCommandAbandonsIt :
    let s := pending [.commandCutByRst 0xA0000000 7] (buffer 4 1 1 [(7, 0, 0x81)])
    let z := pending [.commandCutByRst 0x90000000 0] (buffer 4 1 1 [])
    (s.cfg.Legal ∧ s.busy = false ∧ s.hostIn = .commandCutByRst 0xA0000000 7 :: [] ∧
      (∀ n < 7, answerAt s n = .ok) ∧ (planOfWord 0xA0000000 s)[7]? = some (.refresh 8 0, [0x08, 0x81])) ∧
    (z.cfg.Legal ∧ z.busy = false ∧ z.hostIn = .commandCutByRst 0x90000000 0 :: [] ∧
      (∀ n < 0, answerAt z n = .ok) ∧ (planOfWord 0x90000000 z)[0]? = some (.init 0, [0x0F, 0x00])) := by decide

/-- A state no reset value stands in: bytes, a response, a transaction already sent. -/
def busyBuffer : State :=
  { buffer 4 2 2 [(0, 0, 0xFF), (7, 1, 0x81)] with
    rspStatus := 0, rspData := 5, rspValid := true, txLog := [⟨[1, 2, 3, 4], .ok⟩] }

theorem busyBuffer_inv (events : List HostEvent) : Inv (pending events busyBuffer) :=
  ⟨by show busyBuffer.mem.wf = true; decide, by show ∀ cell ∈ busyBuffer.mem, cell.1 < 8 * busyBuffer.cfg.sMax; decide,
    by show busyBuffer.segCount ≤ busyBuffer.cfg.sMax; decide, by show busyBuffer.rspStatus.toNat ≤ 4; decide,
    fun h => absurd rfl h, rfl, rfl⟩

theorem witness_EveryStepKeepsTheInvariant :
    Inv (pending [.command 0x60A50000] busyBuffer) ∧ ∃ t, step (pending [.command 0x60A50000] busyBuffer) = .next t :=
  ⟨busyBuffer_inv _, _, rfl⟩

theorem witness_ParametersNeverChange : ∃ t, step (pending [.command 0x10000008] busyBuffer) = .next t := ⟨_, rfl⟩

theorem witness_TransactionsAreOnlyAppended :
    ∃ t, step (pending [.commandCutByRst 0xA0000000 3] busyBuffer) = .next t := ⟨_, rfl⟩

theorem witness_SegmentCountIsWrittenByTwoCommands :
    (∃ t, exec (.construct 8) busyBuffer = .next t ∧ t.segCount ≠ busyBuffer.segCount) ∧
    (∃ t, exec (.setPixelExp 31 9 true) busyBuffer = .next t ∧ t.segCount ≠ busyBuffer.segCount) ∧
    (∃ t, exec .clear busyBuffer = .next t ∧ ∀ w, Instr.clear ≠ .construct w) :=
  ⟨⟨_, rfl, by decide⟩, ⟨_, rfl, by decide⟩, ⟨_, rfl, by intro w h; cases h⟩⟩

/-- The four errors. -/
theorem witness_ErrorsChangeNeitherBufferNorWidth :
    (∃ t, Ready (pending [.command 0] busyBuffer) 0 [] ∧ step (pending [.command 0] busyBuffer) = .next t ∧
      t.rspStatus ≠ 0) ∧
    (∃ t, Ready (pending [.command 0x1000000C] busyBuffer) 0x1000000C [] ∧
      step (pending [.command 0x1000000C] busyBuffer) = .next t ∧ t.rspStatus ≠ 0) ∧
    (∃ t, Ready (pending [.command 0x40010020] busyBuffer) 0x40010020 [] ∧
      step (pending [.command 0x40010020] busyBuffer) = .next t ∧ t.rspStatus ≠ 0) ∧
    (∃ t, Ready { pending [.command 0x90000000] busyBuffer with txScript := [.ok, .fail] } 0x90000000 [] ∧
      step { pending [.command 0x90000000] busyBuffer with txScript := [.ok, .fail] } = .next t ∧ t.rspStatus ≠ 0) :=
  ⟨⟨_, by decide, rfl, by decide⟩, ⟨_, by decide, rfl, by decide⟩, ⟨_, by decide, rfl, by decide⟩,
    ⟨_, by decide, rfl, by decide⟩⟩

/-- One command for each of the five statuses. -/
theorem witness_StatusesByCommand :
    (∃ t, Ready (pending [.command 0xB0000000] busyBuffer) 0xB0000000 [] ∧
      step (pending [.command 0xB0000000] busyBuffer) = .next t ∧ t.rspStatus = 0) ∧
    (∃ t, Ready (pending [.command 0xC0000000] busyBuffer) 0xC0000000 [] ∧
      step (pending [.command 0xC0000000] busyBuffer) = .next t ∧ t.rspStatus = 1) ∧
    (∃ t, Ready (pending [.command 0x1000FFFF] busyBuffer) 0x1000FFFF [] ∧
      step (pending [.command 0x1000FFFF] busyBuffer) = .next t ∧ t.rspStatus = 2) ∧
    (∃ t, Ready (pending [.command 0x10000028] busyBuffer) 0x10000028 [] ∧
      step (pending [.command 0x10000028] busyBuffer) = .next t ∧ t.rspStatus = 3) ∧
    (∃ t, Ready { pending [.command 0xA0000000] busyBuffer with txScript := [.fail] } 0xA0000000 [] ∧
      step { pending [.command 0xA0000000] busyBuffer with txScript := [.fail] } = .next t ∧ t.rspStatus = 4) :=
  ⟨⟨_, by decide, rfl, by decide⟩, ⟨_, by decide, rfl, by decide⟩, ⟨_, by decide, rfl, by decide⟩,
    ⟨_, by decide, rfl, by decide⟩, ⟨_, by decide, rfl, by decide⟩⟩

theorem witness_OnlyTheEncoderTransmits :
    (∃ t, exec (.shiftLeft 1) busyBuffer = .next t) ∧ (∃ t, exec .encRefresh busyBuffer = .next t) :=
  ⟨⟨_, rfl⟩, ⟨_, rfl⟩⟩

theorem witness_BufferCommandsAlwaysComplete :
    Instr.rawRead 15 65535 ≠ .encInit ∧ Instr.rawRead 15 65535 ≠ .encRefresh := by decide

/-- Nothing pending, a command, and both kinds of reset. -/
theorem witness_ResponseHoldsUntilTheNextCommand :
    (∃ t, step busyBuffer = .next t) ∧ (∃ t, step (pending [.command 0x50000000] busyBuffer) = .next t) ∧
    (∃ t, step (pending [.rst] busyBuffer) = .next t) ∧
    (∃ t, step (pending [.commandCutByRst 0x80000000 0] busyBuffer) = .next t) :=
  ⟨⟨_, rfl⟩, ⟨_, rfl⟩, ⟨_, rfl⟩, ⟨_, rfl⟩⟩

/-- `busyBuffer` with a byte beyond `S` that it does not hold; a command that completes and one that hangs. -/
theorem witness_InvisibleStorageIsNeverObserved :
    busyBuffer.segCount ≤ busyBuffer.cfg.sMax ∧ SameVisible busyBuffer (memWrite busyBuffer 3 2 0x77) ∧
    (∃ t, exec (.setPixelExp 16 0 true) busyBuffer = .next t) ∧
    SameVisible { busyBuffer with txRest := .silent } (memWrite { busyBuffer with txRest := .silent } 3 2 0x77) ∧
    exec .encInit { busyBuffer with txRest := .silent } = .fault .transportSilent := by
  have key : ∀ y < 8, ∀ seg < 2, memRead (memWrite busyBuffer 3 2 0x77) y seg = memRead busyBuffer y seg := by decide
  exact ⟨by decide, ⟨rfl, fun y seg hy hs => key y hy seg hs⟩, ⟨_, rfl⟩, ⟨rfl, fun y seg hy hs => key y hy seg hs⟩, rfl⟩

theorem witness_ReadsHaveNoSideEffects :
    ∃ y seg, Instr.rawRead 15 65535 = .rawRead y seg := ⟨15, 65535, rfl⟩

/-- The three ways CONSTRUCT ends, at the ends of their ranges. -/
theorem witness_ConstructStartsABlankBuffer :
    (65535 < 65536 ∧ 65535 % 8 ≠ 0) ∧ (40 % 8 = 0 ∧ busyBuffer.cfg.sMax < 40 / 8) ∧
    (32 % 8 = 0 ∧ 32 / 8 ≤ busyBuffer.cfg.sMax) ∧ (0 % 8 = 0 ∧ 0 / 8 ≤ busyBuffer.cfg.sMax) := by decide

theorem witness_GetPixelAnswersThePixel : 65535 < 65536 ∧ 15 < 16 := by decide

/-- The last pixel in bounds and the first outside, in both directions. -/
theorem witness_SetPixelWritesOneBit :
    (65535 < 65536 ∧ 15 < 16) ∧ (7 < 8 ∧ 15 < 8 * busyBuffer.segCount) ∧ ¬(7 < 8 ∧ 16 < 8 * busyBuffer.segCount) ∧
    ¬(8 < 8 ∧ 15 < 8 * busyBuffer.segCount) := by decide

theorem witness_SetPixelChangesOnlyItsPixel :
    busyBuffer.segCount ≤ busyBuffer.cfg.sMax ∧ 7 < 8 ∧ 15 < 8 * busyBuffer.segCount ∧
    ∃ t, exec (.setPixel 15 7 false) busyBuffer = .next t := ⟨by decide, by decide, by decide, _, rfl⟩

/-- Within the width, growth to the last segment, and growth beyond it. -/
theorem witness_SetPixelExpandingGrowsThenWrites :
    busyBuffer.segCount ≤ busyBuffer.cfg.sMax ∧ 15 / 8 < busyBuffer.segCount ∧
    (busyBuffer.segCount ≤ 32 / 8 ∧ busyBuffer.cfg.sMax < 32 / 8 + 1) ∧
    (busyBuffer.segCount ≤ 31 / 8 ∧ 31 / 8 + 1 ≤ busyBuffer.cfg.sMax) := by decide

/-- E2's sequence of growing columns. -/
theorem witness_GrowthLaw :
    (∃ t, exec (.setPixelExp 31 0 true) busyBuffer = .next t ∧ t.rspStatus = 0) ∧
    ((∃ p ∈ ([(3, 0, true), (7, 1, true), (8, 2, true), (20, 3, true), (63, 5, true)] : List (Nat × Nat × Bool)),
        p.1 = 63) ∧
      (∀ p ∈ ([(3, 0, true), (7, 1, true), (8, 2, true), (20, 3, true), (63, 5, true)] : List (Nat × Nat × Bool)),
        p.1 ≤ 63) ∧ 63 / 8 + 1 ≤ (buffer 8 1 0 []).cfg.sMax ∧ (buffer 8 1 0 []).segCount ≤ (3 + 1 + 7) / 8) :=
  ⟨⟨_, rfl, by decide⟩, by decide⟩

theorem witness_GetColumnPacksOneBitPerRow : 65535 < 65536 ∧ 7 < 8 ∧ 8 ≤ 8 := by decide

/-- A buffer with pixels, and an empty one. -/
theorem witness_ShiftLeftMovesEveryPixel :
    (busyBuffer.segCount ≤ busyBuffer.cfg.sMax ∧ 0 < busyBuffer.segCount ∧ 14 + 1 < 8 * busyBuffer.segCount) ∧
    ((buffer 4 1 0 []).segCount ≤ (buffer 4 1 0 []).cfg.sMax ∧ (buffer 4 1 0 []).segCount = 0) := by decide

theorem witness_RotationLaw :
    (busyBuffer.mem.wf = true ∧ busyBuffer.segCount ≤ busyBuffer.cfg.sMax) ∧
    ((buffer 4 1 0 []).mem.wf = true ∧ (buffer 4 1 0 []).segCount = 0) := by decide

theorem witness_RawReadAnswersTheByte : 15 < 16 ∧ 65535 < 65536 ∧ 7 < 8 := by decide

theorem witness_ClearTurnsEveryPixelOff : busyBuffer.segCount ≤ busyBuffer.cfg.sMax := by decide

theorem witness_ReadSegcountAnswersTheCount : (buffer 8192 1 8192 []).segCount ≤ 8192 := by decide

/-- All answers OK, and FAIL on the first and on the last transaction. -/
theorem witness_EncInitSendsFourBroadcasts :
    (∀ n, n < 4 → answerAt busyBuffer n = .ok) ∧
    ((initFrames busyBuffer.cfg)[0]? = some [0x0F, 0, 0x0F, 0] ∧
      (∀ m, m < 0 → answerAt { busyBuffer with txScript := [.fail] } m = .ok) ∧
      answerAt { busyBuffer with txScript := [.fail] } 0 = .fail) ∧
    ((initFrames busyBuffer.cfg)[3]? = some [0x0B, 7, 0x0B, 7] ∧
      (∀ m, m < 3 → answerAt { busyBuffer with txScript := [.ok, .ok, .ok, .fail] } m = .ok) ∧
      answerAt { busyBuffer with txScript := [.ok, .ok, .ok, .fail] } 3 = .fail) := by decide

/-- All sixteen answers OK, and FAIL on the last transaction. -/
theorem witness_EncRefreshSendsTheClosedForm :
    (∀ n, n < 8 * busyBuffer.cfg.nSeg → answerAt busyBuffer n = .ok) ∧
    ((refreshPlan busyBuffer).map Prod.snd)[15]? = some [8, 0x81, 0, 0] ∧
      (∀ m, m < 15 → answerAt { busyBuffer with txScript := List.replicate 15 .ok, txRest := .fail } m = .ok) ∧
      answerAt { busyBuffer with txScript := List.replicate 15 .ok, txRest := .fail } 15 = .fail := by decide

theorem witness_RefreshCounts : ∃ t, exec .encRefresh busyBuffer = .next t ∧ t.rspStatus = 0 := ⟨_, rfl, by decide⟩

theorem witness_EncoderStopsAtTheFirstFailure :
    (planOf .encRefresh busyBuffer)[5]? = some (.refresh 3 1, [3, 0, 0, 0]) ∧
    (∀ m, m < 5 → answerAt { busyBuffer with txScript := [.ok, .ok, .ok, .ok, .ok, .fail] } m = .ok) ∧
    answerAt { busyBuffer with txScript := [.ok, .ok, .ok, .ok, .ok, .fail] } 5 = .fail := by decide

/-- The last of the four transactions of ENC_INIT is never answered. -/
theorem witness_StuckExactlyWhenNeverAnswered :
    3 < (planOf .encInit busyBuffer).length ∧
    (∀ m, m < 3 → answerAt { busyBuffer with txScript := [.ok, .ok, .ok, .silent] } m = .ok) ∧
    answerAt { busyBuffer with txScript := [.ok, .ok, .ok, .silent] } 3 = .silent := by decide

theorem witness_RetrySendsEverythingFromTheStart :
    ∃ t, exec .encRefresh { busyBuffer with txScript := [.ok, .fail] } = .next t ∧ t.rspStatus = 4 ∧
      ∀ n, n < 8 * busyBuffer.cfg.nSeg → answerAt t n = .ok := ⟨_, rfl, by decide, by decide⟩

/-- A wider buffer whose extra segment is not shown. -/
theorem witness_RefreshShowsOnlyTheChain :
    (∀ y seg, y < 8 → seg < busyBuffer.cfg.nSeg →
      rawByte { busyBuffer with mem := (memWrite busyBuffer 3 2 0x77).mem, segCount := 3 } y seg = rawByte busyBuffer y seg) ∧
    ∃ t, exec .encRefresh busyBuffer = .next t := by
  have key : ∀ y < 8, ∀ seg < 2,
      rawByte { busyBuffer with mem := (memWrite busyBuffer 3 2 0x77).mem, segCount := 3 } y seg
        = rawByte busyBuffer y seg := by decide
  exact ⟨fun y seg hy hs => key y hy seg hs, _, rfl⟩

theorem witness_DebugDumpShowsThePixels : 7 < 8 ∧ 15 < 8 * busyBuffer.segCount := by decide

end Sys2Proof.Tests
end

section
/-! Parameters outside the bounds of R8 have no model (U9): the step asks for `Config.Legal` first. -/

namespace Sys2Proof.Machine

/-- `Config.Legal` puts R8's two upper bounds on `N_SEG` into one minimum; here they stand apart. -/
theorem legal_iff_bounds (c : Config) :
    c.Legal ↔ 1 ≤ c.sMax ∧ c.sMax ≤ 8192 ∧ 1 ≤ c.nSeg ∧ c.nSeg ≤ c.sMax ∧ c.nSeg ≤ 8191 := by
  rw [Config.Legal, Nat.le_min]

/-- No event is looked at, and so nothing runs, under parameters that are not legal. -/
theorem step_of_not_legal {s : State} (h : ¬s.cfg.Legal) : step s = .refused .illegalConfiguration :=
  if_neg h

/-- Settles O8: bounds that fail are exactly parameters that are not legal, which the step refuses. -/
theorem illegalConfigurationIsRefused : Obligations.IllegalConfigurationIsRefused := by
  intro s hbounds
  exact step_of_not_legal (mt (legal_iff_bounds s.cfg).mp hbounds)

end Sys2Proof.Machine
end

section
/-! One event of the host at a time (R20, R65), and the state right after reset (R30). -/

namespace Sys2Proof.Machine

/-! ### The step -/

/-- Under legal parameters a step takes the host's first pending event. -/
theorem step_of_event {s : State} {e : HostEvent} {later : List HostEvent} (hlegal : s.cfg.Legal)
    (hin : s.hostIn = e :: later) : step s = stepEvent e later s := by
  unfold step stepHost
  rw [if_pos hlegal, hin]

/-- The opcode table's numbering of the bits is the word's own (R60). -/
@[simp] theorem wordOfTable_toNat (w : Word) : wordOfTable 32 w.toNat = w := by
  rw [wordOfTable, Nat.mod_eq_of_lt w.isLt, BitVec.ofNat_toNat, BitVec.setWidth_eq]

/-- `withFetchWord` makes a DCFB ready for the word it places. -/
theorem ready_withFetchWord {s : State} (w : Word) (hlegal : s.cfg.Legal) :
    Ready (s.withFetchWord 32 w.toNat) w s.hostIn := by
  rw [State.withFetchWord, wordOfTable_toNat]
  exact ⟨hlegal, rfl, rfl⟩

/-- Settles O5: `step_command`, the accepted state written out field by field. -/
theorem stepRunsTheDecodedCommand : Obligations.StepRunsTheDecodedCommand := by
  refine ⟨fun s w later i hready hdecode => step_command hready hdecode, fun s w i hlegal hdecode => ?_⟩
  rw [step_command (ready_withFetchWord w hlegal) hdecode]
  rfl

/-- Settles O6: the word is the next event, and `cmd_ready` is 0. -/
theorem busyAcceptsNoCommand : Obligations.BusyAcceptsNoCommand := by
  intro s w later hlegal hbusy hin
  have hnot : cmdReady s = false := by rw [cmdReady, hbusy]; rfl
  rw [step_of_event hlegal hin, stepEvent, hnot]
  rfl

/-- Settles O7: legal parameters and no event. -/
theorem nothingRunsWithoutTheHost : Obligations.NothingRunsWithoutTheHost := by
  intro s hlegal hin
  unfold step stepHost
  rw [if_pos hlegal, hin]

/-! ### Right after reset -/

/-- With S = 0 no byte is visible (R30). -/
theorem not_visibleAddr_of_segCount_eq_zero {s : State} (h : s.segCount = 0) (a : Nat) : ¬VisibleAddr s a := by
  rintro ⟨y, seg, -, hseg, -⟩
  omega

/-- Settles O11: the fields are those of `State.resetWith`, and S = 0 leaves no byte visible. -/
theorem resetStateHoldsTheResetValues : Obligations.ResetStateHoldsTheResetValues :=
  ⟨rfl, fun _ => ⟨rfl, rfl, not_visibleAddr_of_segCount_eq_zero rfl, rfl, rfl, rfl, rfl, rfl⟩⟩

end Sys2Proof.Machine
end

section
/-! The invariant. Its part on the storage is a property of the memory list alone (`Stored`), which writes inside the
storage and zeroings keep; a command starts from what acceptance leaves of the invariant (`Running`) and ends, with one
response, in a state that has it again. -/

namespace Sys2Proof.Machine

/-! ### The storage -/

/-- `B` in its canonical form and inside the storage of parameters `c` (R21). -/
structure Stored (c : Config) (m : Memory) : Prop where
  wf : m.wf = true
  in_storage : ∀ cell ∈ m, cell.1 < 8 * c.sMax

theorem Stored.filter {c : Config} {m : Memory} (h : Stored c m) (p : Host.Cell → Bool) : Stored c (m.filter p) where
  wf := Memory.wf_filter p h.wf
  in_storage cell hcell := h.in_storage cell (List.mem_of_mem_filter hcell)

theorem Stored.write {c : Config} {m : Memory} (h : Stored c m) {k : Nat} (hk : k < 8 * c.sMax) (v : Byte) :
    Stored c (m.write k v) where
  wf := Memory.wf_write h.wf k v
  in_storage cell hcell := by
    rcases Memory.mem_write hcell with hwritten | hold
    · rw [hwritten]; exact hk
    · exact h.in_storage cell hold

/-- A pixel write stays inside the storage if its segment does (R84). -/
theorem stored_writePixel {s : State} (h : Stored s.cfg s.mem) {x : Nat} (hx : x / 8 < s.cfg.sMax) (y : Nat)
    (v : Bool) : Stored s.cfg (writePixel x y v s).mem := by
  unfold writePixel
  split
  case isTrue hy => exact h.write (cellAddr_lt hy hx) _
  case isFalse => exact h

theorem stored_growTo {s : State} (h : Stored s.cfg s.mem) (x : Nat) : Stored s.cfg (growTo x s).mem :=
  h.filter _

theorem stored_shiftRow {s : State} (h : Stored s.cfg s.mem) {y n : Nat} (hy : y < 8) (hn : n ≤ s.cfg.sMax)
    (carry : Bool) : Stored s.cfg (shiftRow y n carry s).1.mem := by
  induction n generalizing carry s with
  | zero => exact h
  | succ n ih =>
    have hwrite := h.write (cellAddr_lt hy hn) ((memRead s y n >>> 1) ||| bitAt carry 7)
    exact ih (s := memWrite s y n _) hwrite (Nat.le_of_succ_le hn) _

theorem stored_shiftRows {s : State} (h : Stored s.cfg s.mem) (c : Byte) {n : Nat} (hn : n ≤ 8)
    (hS : s.segCount ≤ s.cfg.sMax) : Stored s.cfg (shiftRows c n s).1.mem := by
  induction n with
  | zero => exact h
  | succ n ih =>
    have hbefore : Stored (shiftRows c n s).1.cfg (shiftRows c n s).1.mem := by
      rw [shiftRows_cfg]
      exact ih (Nat.le_of_succ_le hn)
    have hrow := stored_shiftRow hbefore hn (n := s.segCount) (by rwa [shiftRows_cfg]) (c.getLsbD n)
    rwa [shiftRows_cfg] at hrow

/-! ### A command between acceptance and response -/

/-- What acceptance leaves of the invariant: all of it but BUSY and the response (R26, R66). -/
structure Running (s : State) : Prop where
  stored : Stored s.cfg s.mem
  seg_le : s.segCount ≤ s.cfg.sMax
  seq_idle : s.seq = .idle

theorem Inv.stored {s : State} (h : Inv s) : Stored s.cfg s.mem := ⟨h.mem_wf, h.mem_in_storage⟩

/-- The invariant outlives the acceptance of a pending event up to `Running`. -/
theorem Inv.running {s : State} (h : Inv s) (later : List HostEvent) : Running (accept { s with hostIn := later }) :=
  ⟨h.stored, h.seg_le, h.seq_idle⟩

/-- R140 has the codes 0 to 4. -/
theorem statusCode_le (st : Status) : (statusCode st).toNat ≤ 4 := by
  cases st <;> decide

/-- A response with status OK brings the invariant back, whatever its data. -/
theorem Running.inv_ok {s : State} (h : Running s) (d : Data) : Inv (withResponse 0 d s) where
  mem_wf := h.stored.wf
  mem_in_storage := h.stored.in_storage
  seg_le := h.seg_le
  status_known := Nat.zero_le 4
  data_of_error hne := absurd rfl hne
  not_busy := rfl
  seq_idle := h.seq_idle

/-- So does a response with status OK over a new buffer of a sound storage and a width that fits. -/
theorem Running.inv_buffer {s : State} (h : Running s) {m : Memory} {n : Nat} (hm : Stored s.cfg m)
    (hn : n ≤ s.cfg.sMax) (d : Data) : Inv (withResponse 0 d { s with mem := m, segCount := n }) :=
  Running.inv_ok (s := { s with mem := m, segCount := n }) ⟨hm, hn, h.seq_idle⟩ d

/-- A response with a status of R140 and data 0 brings the invariant back (R141). -/
theorem Running.inv_status {s : State} (h : Running s) (st : Status) : Inv (withResponse (statusCode st) 0 s) where
  mem_wf := h.stored.wf
  mem_in_storage := h.stored.in_storage
  seg_le := h.seg_le
  status_known := statusCode_le st
  data_of_error _ := rfl
  not_busy := rfl
  seq_idle := h.seq_idle

/-- An encoder command that ends has changed the transport's side alone, and ends OK or with IO_ERROR (R121, R165). -/
theorem execEncoder_next {i : Instr} {s t : State} (hi : i = .encInit ∨ i = .encRefresh) (h : exec i s = .next t) :
    ∃ st script sent, t = withResponse (statusCode st) 0
      { s with seq := .idle, txScript := script, txLog := s.txLog ++ sent } := by
  rw [execEncoder_eq hi] at h
  rcases finishTransmit_cases (planOf i s) s with ⟨-, e⟩ | ⟨n, hn, -, -, e⟩ | ⟨n, hn, -, -, e⟩ <;>
    rw [e] at h <;> cases h
  · exact ⟨.ok, _, _, rfl⟩
  · exact ⟨.ioError, _, _, by rw [List.append_assoc]; rfl⟩

/-- The run of an encoder command brings the invariant back. -/
theorem Running.inv_execEncoder {i : Instr} {s t : State} (hs : Running s) (hi : i = .encInit ∨ i = .encRefresh)
    (h : exec i s = .next t) : Inv t := by
  obtain ⟨st, script, sent, rfl⟩ := execEncoder_next hi h
  have hidle : Running { s with seq := .idle, txScript := script, txLog := s.txLog ++ sent } :=
    ⟨hs.stored, hs.seg_le, rfl⟩
  exact hidle.inv_status st

/-- Every command that answers brings the invariant back. -/
theorem Running.inv_exec {i : Instr} {s t : State} (hs : Running s) (h : exec i s = .next t) : Inv t := by
  have hmem := hs.stored
  have hS := hs.seg_le
  cases i with
  | construct w =>
    rcases execConstruct_cases w s with ⟨-, e⟩ | ⟨-, -, e⟩ | ⟨-, hfits, e⟩ <;> rw [e] at h <;> cases h
    · exact hs.inv_status .invalidArgument
    · exact hs.inv_status .capacity
    · exact hs.inv_buffer (hmem.filter _) hfits 0
  | getPixel x y => cases h; exact hs.inv_ok _
  | setPixel x y v =>
    rcases execSetPixel_cases x y v s with ⟨⟨-, hx⟩, e⟩ | ⟨-, e⟩ <;> rw [e] at h <;> cases h
    · exact hs.inv_buffer (stored_writePixel hmem (x := x) (by omega) y v) hS 0
    · exact hs.inv_ok 0
  | setPixelExp x y v =>
    rcases execSetPixelExp_cases x y v s with ⟨hx, e⟩ | ⟨-, -, e⟩ | ⟨-, hfits, e⟩ <;> rw [e] at h <;> cases h
    · exact hs.inv_buffer (stored_writePixel hmem (x := x) (by omega) y v) hS 0
    · exact hs.inv_status .capacity
    · exact hs.inv_buffer (stored_writePixel (s := growTo x s) (stored_growTo hmem x) hfits y v) hfits 0
  | getColumn x => cases h; exact hs.inv_ok _
  | shiftLeft c =>
    rw [execShiftLeft_eq] at h
    cases h
    exact hs.inv_buffer (stored_shiftRows hmem c le_rfl hS) hS _
  | rawRead y seg => cases h; exact hs.inv_ok _
  | clear => cases h; exact hs.inv_buffer (hmem.filter _) hS 0
  | encInit => exact hs.inv_execEncoder (.inl rfl) h
  | encRefresh => exact hs.inv_execEncoder (.inr rfl) h
  | readSegcount => cases h; exact hs.inv_ok _

/-! ### Reset -/

/-- `rst` needs of the state before it only a sound storage (R30, R160). -/
theorem Stored.inv_hardReset {s : State} (h : Stored s.cfg s.mem) : Inv (hardReset s) where
  mem_wf := h.wf
  mem_in_storage := h.in_storage
  seg_le := Nat.zero_le _
  status_known := Nat.zero_le 4
  data_of_error hne := absurd rfl hne
  not_busy := rfl
  seq_idle := rfl

/-- So it is for a word cut off by `rst`, whose transactions do not touch the storage (R161). -/
theorem Stored.inv_cutWord {s : State} (h : Stored s.cfg s.mem) (w : Word) (k : Nat) : Inv (cutWord w k s) := by
  obtain ⟨q, script, sent, hcut, -⟩ := transmitUntilCut_cases k (planOfWord w s) s
  rw [cutWord, hcut]
  exact Stored.inv_hardReset h

/-- Settles O12: `rst` of the machine right after reset is that machine, and its storage is empty. -/
theorem invariantHoldsAtReset : Obligations.InvariantHoldsAtReset := by
  refine ⟨by decide, fun c => ?_⟩
  have hempty : Stored c [] := ⟨Memory.wf_nil, by simp⟩
  exact Stored.inv_hardReset (s := State.resetWith c) hempty

/-- Settles O13, by the ways a step can go. -/
theorem everyStepKeepsTheInvariant : Obligations.EveryStepKeepsTheInvariant := by
  intro s t hinv hstep
  obtain ⟨-, ⟨-, rfl⟩ | ⟨w, later, -, -, rfl⟩ | ⟨w, later, i, -, -, -, hexec⟩ | ⟨w, later, e, -, -, -, rfl⟩ |
    ⟨later, -, rfl⟩ | ⟨w, k, later, -, -, rfl⟩ | ⟨w, k, later, -, -, rfl⟩⟩ := step_cases hstep
  · exact hinv
  · exact hinv
  · exact (hinv.running later).inv_exec hexec
  · exact (hinv.running later).inv_status .illegal
  · exact Stored.inv_hardReset hinv.stored
  · exact Stored.inv_hardReset hinv.stored
  · exact Stored.inv_cutWord (hinv.running later).stored w k

end Sys2Proof.Machine
end

section
/-! Who writes the segment count (R23, R24), and what ends the life of a response (R25). -/

namespace Sys2Proof.Machine

/-- A command keeps S, or it is a CONSTRUCT, or a SET_PIXEL_EXP that did not lower S. -/
theorem exec_segCount_cases {i : Instr} {s t : State} (h : exec i s = .next t) :
    t.segCount = s.segCount ∨ (∃ w, i = .construct w) ∨
      ((∃ x y v, i = .setPixelExp x y v) ∧ s.segCount ≤ t.segCount) := by
  cases i with
  | construct w => exact .inr (.inl ⟨w, rfl⟩)
  | getPixel x y => cases h; exact .inl rfl
  | setPixel x y v =>
    rcases execSetPixel_cases x y v s with ⟨-, e⟩ | ⟨-, e⟩ <;> rw [e] at h <;> cases h
    · exact .inl rfl
    · exact .inl rfl
  | setPixelExp x y v =>
    refine .inr (.inr ⟨⟨x, y, v, rfl⟩, ?_⟩)
    rcases execSetPixelExp_cases x y v s with ⟨-, e⟩ | ⟨-, -, e⟩ | ⟨hbeyond, -, e⟩ <;> rw [e] at h <;> cases h
    · exact le_rfl
    · exact le_rfl
    · exact Nat.le_succ_of_le hbeyond
  | getColumn x => cases h; exact .inl rfl
  | shiftLeft c => rw [execShiftLeft_eq] at h; cases h; exact .inl rfl
  | rawRead y seg => cases h; exact .inl rfl
  | clear => cases h; exact .inl rfl
  | encInit => obtain ⟨st, script, sent, rfl⟩ := execEncoder_next (.inl rfl) h; exact .inl rfl
  | encRefresh => obtain ⟨st, script, sent, rfl⟩ := execEncoder_next (.inr rfl) h; exact .inl rfl
  | readSegcount => cases h; exact .inl rfl

/-- Settles O16: the three cases of `exec_segCount_cases`, read twice. -/
theorem segmentCountIsWrittenByTwoCommands : Obligations.SegmentCountIsWrittenByTwoCommands := by
  intro i s t h
  rcases exec_segCount_cases h with hkept | hconstruct | ⟨hexp, hle⟩
  · exact ⟨fun hne => absurd hkept hne, fun _ => hkept.ge⟩
  · obtain ⟨w, rfl⟩ := hconstruct
    exact ⟨fun _ => .inl ⟨w, rfl⟩, fun hnot => absurd rfl (hnot w)⟩
  · exact ⟨fun _ => .inr hexp, fun _ => hle⟩

/-- A command that answers leaves `rsp_valid` = 1 (R66). -/
theorem exec_rspValid {i : Instr} {s t : State} (h : exec i s = .next t) : t.rspValid = true := by
  rcases exec_next_shape h with ⟨st, d, m, n, rfl⟩ | ⟨-, st, script, sent, -, rfl⟩ <;> rfl

/-- Settles O21: a step is idle or waits, or completes a word, or is one of the three resets. -/
theorem responseHoldsUntilTheNextCommand : Obligations.ResponseHoldsUntilTheNextCommand := by
  intro s t hstep
  obtain ⟨hlegal, ⟨-, rfl⟩ | ⟨w, later, -, -, rfl⟩ | ⟨w, later, i, hin, hidle, -, hexec⟩ |
    ⟨w, later, e, hin, hidle, -, rfl⟩ | ⟨later, hin, rfl⟩ | ⟨w, k, later, hin, -, rfl⟩ |
    ⟨w, k, later, hin, -, rfl⟩⟩ := step_cases hstep
  · exact .inl ⟨rfl, rfl, rfl⟩
  · exact .inl ⟨rfl, rfl, rfl⟩
  · exact .inr (.inl ⟨w, later, ⟨hlegal, hidle, hin⟩, exec_rspValid hexec⟩)
  · exact .inr (.inl ⟨w, later, ⟨hlegal, hidle, hin⟩, rfl⟩)
  · exact .inr (.inr ⟨⟨later, .inl hin⟩, rfl, rfl, rfl⟩)
  · exact .inr (.inr ⟨⟨later, .inr ⟨w, k, hin⟩⟩, rfl, rfl, rfl⟩)
  · exact .inr (.inr ⟨⟨later, .inr ⟨w, k, hin⟩⟩, rfl, rfl, rfl⟩)

end Sys2Proof.Machine
end

section
/-! What a command does not read. No command reads the response registers (R25): every operation commutes with putting
other values there. No command reads an invisible byte (R21): two states that differ only there go side by side through
every operation. A run of transactions reads neither the registers nor `B`, once its frames are built. -/

namespace Sys2Proof.Machine

/-! ### The transport -/

/-- `s` with another array and other response registers, which no transaction depends on. -/
def withUnread (m : Memory) (st : BitVec 3) (d : Data) (valid : Bool) (s : State) : State :=
  { s with mem := m, rspStatus := st, rspData := d, rspValid := valid }

/-- How a plan ends depends on the transport's answers alone, and the array is as it was before. -/
theorem finishTransmit_withUnread (plan : List (Sequencer × List Byte)) (s : State) :
    (∃ status script log, ∀ m st d valid, finishTransmit (transmitAll plan (withUnread m st d valid s))
      = .next (withResponse status 0 { s with mem := m, seq := .idle, txScript := script, txLog := log })) ∨
    (∀ m st d valid, finishTransmit (transmitAll plan (withUnread m st d valid s)) = .fault .transportSilent) := by
  rcases answers_cases s plan.length with hok | ⟨n, hn, hok, hfail⟩ | ⟨n, hn, hok, hsilent⟩
  · refine .inl ⟨0, s.txScript.drop plan.length, s.txLog ++ sentOk plan, fun m st d valid => ?_⟩
    obtain ⟨q, hq⟩ := transmitAll_allOk (s := withUnread m st d valid s) hok
    rw [hq]; rfl
  · refine .inl ⟨4, s.txScript.drop (n + 1), s.txLog ++ sentOk (plan.take n) ++ [⟨plan[n].2, .fail⟩],
      fun m st d valid => ?_⟩
    obtain ⟨q, hq⟩ := transmitAll_failed (s := withUnread m st d valid s) hn hok hfail
    rw [hq]; rfl
  · refine .inr (fun m st d valid => ?_)
    obtain ⟨q, hq⟩ := transmitAll_hung (s := withUnread m st d valid s) hn hok hsilent
    rw [hq]; rfl

/-! ### The response registers -/

/-- `s` with the response registers holding what they may. -/
def overResponse (st : BitVec 3) (d : Data) (valid : Bool) (s : State) : State :=
  { s with rspStatus := st, rspData := d, rspValid := valid }

section
variable (st : BitVec 3) (d : Data) (valid : Bool)

/-- A response overwrites the registers. -/
theorem respond_overResponse (d' : Data) (s : State) : respond d' (overResponse st d valid s) = respond d' s := rfl

theorem writePixel_overResponse (x y : Nat) (v : Bool) (s : State) :
    writePixel x y v (overResponse st d valid s) = overResponse st d valid (writePixel x y v s) := by
  unfold writePixel
  split <;> rfl

theorem shiftRow_overResponse (y n : Nat) (carry : Bool) (s : State) :
    shiftRow y n carry (overResponse st d valid s)
      = (overResponse st d valid (shiftRow y n carry s).1, (shiftRow y n carry s).2) := by
  induction n generalizing carry s with
  | zero => rfl
  | succ n ih => exact ih _ (memWrite s y n _)

theorem shiftRows_overResponse (c : Byte) (n : Nat) (s : State) :
    shiftRows c n (overResponse st d valid s)
      = (overResponse st d valid (shiftRows c n s).1, (shiftRows c n s).2) := by
  induction n with
  | zero => rfl
  | succ n ih => simp only [shiftRows, ih, shiftRow_overResponse]; rfl

theorem finishTransmit_overResponse (plan : List (Sequencer × List Byte)) (s : State) :
    finishTransmit (transmitAll plan (overResponse st d valid s)) = finishTransmit (transmitAll plan s) := by
  rcases finishTransmit_withUnread plan s with ⟨status, script, log, h⟩ | h
  · exact (h s.mem st d valid).trans (h s.mem s.rspStatus s.rspData s.rspValid).symm
  · exact (h s.mem st d valid).trans (h s.mem s.rspStatus s.rspData s.rspValid).symm

/-- A command does the same whatever the response registers hold. -/
theorem exec_overResponse (i : Instr) (s : State) : exec i (overResponse st d valid s) = exec i s := by
  cases i with
  | construct w => rfl
  | getPixel x y => rfl
  | setPixel x y v =>
    have hbounds : inBounds (overResponse st d valid s) x y = inBounds s x y := rfl
    simp only [exec, execSetPixel, hbounds, writePixel_overResponse]
    split <;> rfl
  | setPixelExp x y v =>
    have hgrow : growTo x (overResponse st d valid s) = overResponse st d valid (growTo x s) := rfl
    simp only [exec, execSetPixelExp, hgrow, writePixel_overResponse, respond_overResponse]
    rfl
  | getColumn x => rfl
  | shiftLeft c => simp only [exec, execShiftLeft, shiftRows_overResponse, respond_overResponse]
  | rawRead y seg => rfl
  | clear => rfl
  | encInit => exact finishTransmit_overResponse st d valid (initPlan s.cfg) s
  | encRefresh => exact finishTransmit_overResponse st d valid (refreshPlan s) s
  | readSegcount => rfl

end

/-- Settles O22: `overResponse` is the update in the statement. -/
theorem noStatusIsSticky : Obligations.NoStatusIsSticky :=
  fun i s st d valid => exec_overResponse st d valid i s

/-! ### Segments zeroed below a new width -/

/-- Segments lo..hi−1 zeroed and S = hi: how CONSTRUCT, the growth of SET_PIXEL_EXP and CLEAR leave the buffer. -/
def zeroedTo (lo hi : Nat) (s : State) : State := { zeroSegments lo hi s with segCount := hi }

theorem execConstruct_eq_zeroedTo (w : Nat) (s : State) :
    exec (.construct w) s =
      if w % 8 ≠ 0 then .next (raise .invalidArgument s)
      else if w / 8 > s.cfg.sMax then .next (raise .capacity s)
      else .next (respond 0 (zeroedTo 0 (w / 8) s)) := rfl

theorem growTo_eq_zeroedTo (x : Nat) (s : State) : growTo x s = zeroedTo s.segCount (x / 8 + 1) s := rfl

theorem execClear_eq_zeroedTo (s : State) : exec .clear s = .next (respond 0 (zeroedTo 0 s.segCount s)) := rfl

theorem memRead_zeroedTo {lo hi : Nat} {s : State} {y seg : Nat} (hhi : hi ≤ s.cfg.sMax) (hseg : seg < s.cfg.sMax) :
    memRead (zeroedTo lo hi s) y seg = if y < 8 ∧ lo ≤ seg ∧ seg < hi then fillByte else memRead s y seg :=
  memRead_zeroSegments hhi hseg

/-! ### Invisible bytes: what a command reads -/

section
variable {s s' : State} (h : SameVisible s s')
include h

/-- A state that differs from `s` in invisible bytes only is `s` with another array. -/
theorem SameVisible.exists_mem : ∃ m, s' = { s with mem := m } :=
  ⟨s'.mem, congrArg (fun u : State => { u with mem := s'.mem }) h.rest⟩

theorem SameVisible.cfg_eq : s'.cfg = s.cfg := (congrArg State.cfg h.rest :)

theorem SameVisible.segCount_eq : s'.segCount = s.segCount := (congrArg State.segCount h.rest :)

/-- The visible bytes, by their addresses. -/
theorem SameVisible.read_eq {y seg : Nat} (hy : y < 8) (hseg : seg < s.segCount) :
    s'.mem.read (cellAddr s.cfg y seg) = s.mem.read (cellAddr s.cfg y seg) := by
  have hbyte := h.bytes y seg hy hseg
  rwa [memRead, memRead, h.cfg_eq] at hbyte

/-- R40 looks at visible bytes only. -/
theorem SameVisible.pixel_eq (x y : Nat) : pixel s' x y = pixel s x y := by
  by_cases hy : y < 8
  · exact pixel_congr h.segCount_eq (fun seg hseg => h.bytes y seg hy hseg) x
  · rw [pixel_of_not_inBounds (fun hb => hy hb.1), pixel_of_not_inBounds (fun hb => hy hb.1)]

theorem SameVisible.columnByte_eq (x : Nat) : columnByte s' x = columnByte s x := by
  unfold columnByte
  simp only [h.pixel_eq]

/-- R93 answers a visible byte or 0x00. -/
theorem SameVisible.rawByte_eq (y seg : Nat) : rawByte s' y seg = rawByte s y seg := by
  unfold rawByte
  rw [h.segCount_eq]
  split
  case isTrue hin => exact h.bytes y seg hin.1 hin.2
  case isFalse => rfl

theorem SameVisible.refreshPlan_eq : refreshPlan s' = refreshPlan s := by
  unfold refreshPlan refreshFrame
  simp only [h.cfg_eq, h.rawByte_eq]

/-- The column byte a shift answers is made of visible bytes, or of the incoming byte if there is none (R90). -/
theorem SameVisible.shiftRows_out_eq (hS : s.segCount ≤ s.cfg.sMax) (c : Byte) :
    (shiftRows c 8 s').2 = (shiftRows c 8 s).2 := by
  have hS' : s'.segCount ≤ s'.cfg.sMax := by rwa [h.segCount_eq, h.cfg_eq]
  refine BitVec.eq_of_getLsbD_eq fun y hy => ?_
  rw [getLsbD_shiftRows_out c 8 s' hS', getLsbD_shiftRows_out c 8 s hS, h.segCount_eq]
  split
  case isTrue => rfl
  case isFalse hne => rw [h.bytes y 0 hy (Nat.pos_of_ne_zero hne)]

/-! ### Invisible bytes: what a command writes -/

/-- The same response on both sides. -/
theorem SameVisible.complete (st : Status) (d : Data) : SameVisible (complete st d s) (complete st d s') :=
  ⟨congrArg (Machine.complete st d) h.rest, h.bytes⟩

/-- The same pixel written on both sides, in a segment that is visible. -/
theorem SameVisible.writePixel {x : Nat} (hx : x / 8 < s.segCount) (y : Nat) (v : Bool) :
    SameVisible (writePixel x y v s) (writePixel x y v s') where
  rest := by
    rw [writePixel_eq x y v s', writePixel_eq x y v s]
    exact congrArg (fun u : State => { u with mem := (Machine.writePixel x y v s).mem }) h.rest
  bytes y' seg hy' hseg := by
    rw [writePixel_segCount] at hseg
    simp only [memRead, writePixel_cfg, read_writePixel]
    rw [h.cfg_eq]
    split
    case isTrue hat => rw [h.read_eq hat.1 hx]
    case isFalse => exact h.read_eq hy' hseg

/-- The same segments zeroed on both sides: a byte that becomes visible is 0x00, and one that was visible and is not
zeroed stays the same. -/
theorem SameVisible.zeroedTo {lo hi : Nat} (hlo : lo ≤ s.segCount) (hhi : hi ≤ s.cfg.sMax) :
    SameVisible (zeroedTo lo hi s) (zeroedTo lo hi s') where
  rest := congrArg (fun u => { Machine.zeroedTo lo hi u with mem := (Machine.zeroedTo lo hi s).mem }) h.rest
  bytes y seg hy hseg := by
    have hseg : seg < hi := hseg
    have hhi' : hi ≤ s'.cfg.sMax := by rwa [h.cfg_eq]
    rw [memRead_zeroedTo hhi' (by omega), memRead_zeroedTo hhi (by omega)]
    split
    case isTrue => rfl
    case isFalse hkept => exact h.bytes y seg hy (by omega)

/-- The same shift on both sides (R90). -/
theorem SameVisible.shiftRows (hS : s.segCount ≤ s.cfg.sMax) (c : Byte) :
    SameVisible (shiftRows c 8 s).1 (shiftRows c 8 s').1 where
  rest := by
    rw [shiftRows_eq c 8 s', shiftRows_eq c 8 s]
    exact congrArg (fun u : State => { u with mem := (Machine.shiftRows c 8 s).1.mem }) h.rest
  bytes y seg hy hseg := by
    rw [shiftRows_segCount] at hseg
    have hS' : s'.segCount ≤ s'.cfg.sMax := by rwa [h.segCount_eq, h.cfg_eq]
    rw [memRead_shiftRows c 8 s' hS' (by rw [h.cfg_eq]; omega), memRead_shiftRows c 8 s hS (by omega), h.segCount_eq,
      h.bytes y seg hy hseg]
    split_ifs with _ hright
    · rw [h.bytes y (seg + 1) hy hright]
    all_goals rfl

end

/-! ### Invisible bytes: two runs of one command -/

/-- Two outcomes alike: next states that differ in invisible bytes only, or the same stop. -/
inductive Alike : Host.Outcome State Fault Refusal → Host.Outcome State Fault Refusal → Prop
  | next {t t' : State} (h : SameVisible t t') : Alike (.next t) (.next t')
  | fault (r : Fault) : Alike (.fault r) (.fault r)

section
variable {s s' : State} (h : SameVisible s s')
include h

/-- One plan sent from two states that differ in invisible bytes only. -/
theorem SameVisible.alike_finishTransmit (plan : List (Sequencer × List Byte)) :
    Alike (finishTransmit (transmitAll plan s)) (finishTransmit (transmitAll plan s')) := by
  obtain ⟨m, rfl⟩ := h.exists_mem
  rcases finishTransmit_withUnread plan s with ⟨status, script, log, hends⟩ | hhangs
  · have hleft : finishTransmit (transmitAll plan s) = _ := hends s.mem s.rspStatus s.rspData s.rspValid
    have hright : finishTransmit (transmitAll plan { s with mem := m }) = _ :=
      hends m s.rspStatus s.rspData s.rspValid
    rw [hleft, hright]
    exact .next ⟨rfl, h.bytes⟩
  · have hleft : finishTransmit (transmitAll plan s) = _ := hhangs s.mem s.rspStatus s.rspData s.rspValid
    have hright : finishTransmit (transmitAll plan { s with mem := m }) = _ :=
      hhangs m s.rspStatus s.rspData s.rspValid
    rw [hleft, hright]
    exact .fault .transportSilent

/-- A command goes alike in two states that differ in invisible bytes only. -/
theorem SameVisible.alike_exec (hS : s.segCount ≤ s.cfg.sMax) (i : Instr) : Alike (exec i s) (exec i s') := by
  cases i with
  | construct w =>
    rw [execConstruct_eq_zeroedTo, execConstruct_eq_zeroedTo, h.cfg_eq]
    split_ifs with _ hover
    · exact .next (h.complete .invalidArgument 0)
    · exact .next (h.complete .capacity 0)
    · exact .next ((h.zeroedTo (Nat.zero_le _) (not_lt.mp hover)).complete .ok 0)
  | getPixel x y =>
    rw [execGetPixel_eq, execGetPixel_eq, h.pixel_eq]
    exact .next (h.complete .ok _)
  | setPixel x y v =>
    have hbounds : inBounds s' x y = inBounds s x y := by rw [inBounds, inBounds, h.segCount_eq]
    simp only [exec, execSetPixel, hbounds]
    split
    case isTrue hin =>
      have hx : x / 8 < s.segCount := by
        simp only [inBounds, Bool.and_eq_true, decide_eq_true_eq] at hin
        omega
      exact .next ((h.writePixel hx y v).complete .ok 0)
    case isFalse => exact .next (h.complete .ok 0)
  | setPixelExp x y v =>
    change Alike (execSetPixelExp x y v s) (execSetPixelExp x y v s')
    rw [execSetPixelExp, execSetPixelExp, h.cfg_eq, h.segCount_eq]
    split_ifs with hx hover
    · exact .next ((h.writePixel hx y v).complete .ok 0)
    · exact .next (h.complete .capacity 0)
    · have hgrown : SameVisible (growTo x s) (growTo x s') := by
        rw [growTo_eq_zeroedTo, growTo_eq_zeroedTo, h.segCount_eq]
        exact h.zeroedTo le_rfl (not_lt.mp hover)
      exact .next ((hgrown.writePixel (Nat.lt_succ_self _) y v).complete .ok 0)
  | getColumn x =>
    rw [execGetColumn_eq, execGetColumn_eq, h.columnByte_eq]
    exact .next (h.complete .ok _)
  | shiftLeft c =>
    simp only [exec, execShiftLeft, h.shiftRows_out_eq hS]
    exact .next ((h.shiftRows hS c).complete .ok _)
  | rawRead y seg =>
    rw [execRawRead_eq, execRawRead_eq, h.rawByte_eq]
    exact .next (h.complete .ok _)
  | clear =>
    rw [execClear_eq_zeroedTo, execClear_eq_zeroedTo, h.segCount_eq]
    exact .next ((h.zeroedTo (Nat.zero_le _) hS).complete .ok 0)
  | encInit =>
    simp only [exec, execEncInit, h.cfg_eq]
    exact h.alike_finishTransmit _
  | encRefresh =>
    simp only [exec, execEncRefresh, h.refreshPlan_eq]
    exact h.alike_finishTransmit _
  | readSegcount =>
    rw [execReadSegcount_eq, execReadSegcount_eq, h.segCount_eq]
    exact .next (h.complete .ok _)

end

/-- Settles O23: the two outcomes are alike. -/
theorem invisibleStorageIsNeverObserved : Obligations.InvisibleStorageIsNeverObserved := by
  intro i s s' hS hsame
  have halike := hsame.alike_exec hS i
  constructor
  · intro t hnext
    rw [hnext] at halike
    generalize exec i s' = o at halike ⊢
    cases halike with
    | next h => exact ⟨_, rfl, h⟩
  · intro r hfault
    rw [hfault] at halike
    generalize exec i s' = o at halike ⊢
    cases halike
    rfl

end Sys2Proof.Machine
end

section
/-! What commands do to the memory and to the stream (20_memory.md). The commands of the buffer always answer, and leave
the transport's side alone (R45, R49); those of the encoder leave the buffer alone (R165); the stream grows at its end
only (R52); a read repeats (R48); SET_PIXEL in bounds changes one pixel (R84). -/

namespace Sys2Proof.Machine

/-! ### The response is no operand -/

section
variable (st : BitVec 3) (d : Data) (s : State)

@[simp] theorem pixel_withResponse (x y : Nat) : pixel (withResponse st d s) x y = pixel s x y := rfl

@[simp] theorem columnByte_withResponse (x : Nat) : columnByte (withResponse st d s) x = columnByte s x := rfl

@[simp] theorem rawByte_withResponse (y seg : Nat) : rawByte (withResponse st d s) y seg = rawByte s y seg := rfl

/-- The second of two responses stands. -/
@[simp] theorem withResponse_withResponse (st' : BitVec 3) (d' : Data) :
    withResponse st' d' (withResponse st d s) = withResponse st' d' s := rfl

end

/-- A command that only answers a datum, and a datum that does not depend on the response registers, gives the same
when it is repeated (R48). -/
theorem exec_repeats {i : Instr} {f : State → Data} (hexec : ∀ s, exec i s = .next (withResponse 0 (f s) s))
    (hf : ∀ d s, f (withResponse 0 d s) = f s) (s : State) :
    ∃ d, exec i s = .next (withResponse 0 d s) ∧ exec i (withResponse 0 d s) = .next (withResponse 0 d s) :=
  ⟨f s, hexec s, by rw [hexec, hf, withResponse_withResponse]⟩

/-- Settles O24: each of the four answers a datum that does not depend on the response registers. -/
theorem readsHaveNoSideEffects : Obligations.ReadsHaveNoSideEffects := by
  rintro i s (⟨x, y, rfl⟩ | ⟨x, rfl⟩ | ⟨y, seg, rfl⟩ | rfl)
  · exact exec_repeats (execGetPixel_eq x y) (fun d s => by rw [pixel_withResponse]) s
  · exact exec_repeats (execGetColumn_eq x) (fun d s => by rw [columnByte_withResponse]) s
  · exact exec_repeats (execRawRead_eq y seg) (fun d s => by rw [rawByte_withResponse]) s
  · exact exec_repeats execReadSegcount_eq (fun d s => by rw [withResponse_segCount]) s

/-! ### Every command of the buffer answers -/

/-- Settles O20: every way such a command can end has a next state. -/
theorem bufferCommandsAlwaysComplete : Obligations.BufferCommandsAlwaysComplete := by
  intro i s hinit hrefresh
  cases i with
  | construct w => rcases execConstruct_cases w s with ⟨-, e⟩ | ⟨-, -, e⟩ | ⟨-, -, e⟩ <;> exact ⟨_, e⟩
  | getPixel x y => exact ⟨_, execGetPixel_eq x y s⟩
  | setPixel x y v => rcases execSetPixel_cases x y v s with ⟨-, e⟩ | ⟨-, e⟩ <;> exact ⟨_, e⟩
  | setPixelExp x y v => rcases execSetPixelExp_cases x y v s with ⟨-, e⟩ | ⟨-, -, e⟩ | ⟨-, -, e⟩ <;> exact ⟨_, e⟩
  | getColumn x => exact ⟨_, execGetColumn_eq x s⟩
  | shiftLeft c => exact ⟨_, execShiftLeft_eq c s⟩
  | rawRead y seg => exact ⟨_, execRawRead_eq y seg s⟩
  | clear => exact ⟨_, execClear_eq s⟩
  | encInit => exact absurd rfl hinit
  | encRefresh => exact absurd rfl hrefresh
  | readSegcount => exact ⟨_, execReadSegcount_eq s⟩

/-! ### The stream -/

/-- A command that is not the encoder's changes the response, `B` and `S` at most. -/
theorem execBuffer_next {i : Instr} {s t : State} (hinit : i ≠ .encInit) (hrefresh : i ≠ .encRefresh)
    (h : exec i s = .next t) :
    ∃ st d m n, t = withResponse (statusCode st) d { s with mem := m, segCount := n } := by
  rcases exec_next_shape h with hshape | ⟨rfl | rfl, -⟩
  · exact hshape
  · exact absurd rfl hinit
  · exact absurd rfl hrefresh

/-- Settles O19: the frame of a buffer command, that of an encoder command, and what the two have in common. -/
theorem onlyTheEncoderTransmits : Obligations.OnlyTheEncoderTransmits := by
  intro i s t h
  refine ⟨fun hinit hrefresh => ?_, fun hencoder => ?_, ?_⟩
  · obtain ⟨st, d, m, n, rfl⟩ := execBuffer_next hinit hrefresh h
    exact ⟨rfl, rfl, rfl⟩
  · obtain ⟨st, script, sent, rfl⟩ := execEncoder_next hencoder h
    exact ⟨rfl, rfl⟩
  · rcases exec_next_shape h with ⟨st, d, m, n, rfl⟩ | ⟨-, st, script, sent, -, rfl⟩ <;> exact ⟨rfl, rfl⟩

/-- What was sent before a command stays sent, in its place. -/
theorem exec_txLog_append {i : Instr} {s t : State} (h : exec i s = .next t) : ∃ sent, t.txLog = s.txLog ++ sent := by
  rcases exec_next_shape h with ⟨st, d, m, n, rfl⟩ | ⟨-, st, script, sent, -, rfl⟩
  · exact ⟨[], (List.append_nil _).symm⟩
  · exact ⟨sent, rfl⟩

/-- A command that `rst` cuts off keeps what was sent before it too (R161). -/
theorem cutWord_txLog_append (w : Word) (k : Nat) (s : State) : ∃ sent, (cutWord w k s).txLog = s.txLog ++ sent := by
  obtain ⟨q, script, sent, hcut, -⟩ := transmitUntilCut_cases k (planOfWord w s) s
  rw [cutWord, hcut]
  exact ⟨sent, rfl⟩

/-- Settles O15: only a command, completed or cut off, touches the stream. -/
theorem transactionsAreOnlyAppended : Obligations.TransactionsAreOnlyAppended := by
  intro s t h
  obtain ⟨-, ⟨-, rfl⟩ | ⟨w, later, -, -, rfl⟩ | ⟨w, later, i, -, -, -, hexec⟩ | ⟨w, later, e, -, -, -, rfl⟩ |
    ⟨later, -, rfl⟩ | ⟨w, k, later, -, -, rfl⟩ | ⟨w, k, later, -, -, rfl⟩⟩ := step_cases h
  · exact ⟨[], (List.append_nil _).symm⟩
  · exact ⟨[], (List.append_nil _).symm⟩
  · exact exec_txLog_append (s := accept { s with hostIn := later }) hexec
  · exact ⟨[], (List.append_nil _).symm⟩
  · exact ⟨[], (List.append_nil _).symm⟩
  · exact ⟨[], (List.append_nil _).symm⟩
  · exact cutWord_txLog_append w k (accept { s with hostIn := later })

/-! ### SET_PIXEL in bounds -/

/-- In bounds SET_PIXEL is the pixel write and the response (R84). -/
theorem execSetPixel_of_inBounds {s : State} {x y : Nat} (v : Bool) (hy : y < 8) (hx : x < 8 * s.segCount) :
    exec (.setPixel x y v) s = .next (withResponse 0 0 (writePixel x y v s)) := by
  rcases execSetPixel_cases x y v s with ⟨-, e⟩ | ⟨hout, -⟩
  · rw [e, ← writePixel_eq x y v s]
  · exact absurd ⟨hy, hx⟩ hout

/-- Settles O28: the pixel write changes its pixel only, and the response no pixel. -/
theorem setPixelChangesOnlyItsPixel : Obligations.SetPixelChangesOnlyItsPixel := by
  intro x y v s t hS hy hx h x' y'
  rw [execSetPixel_of_inBounds v hy hx] at h
  cases h
  rw [pixel_withResponse, pixel_writePixel hS hx]
  simp only [hy, and_true]

end Sys2Proof.Machine
end

section
/-! The encoding (30_encoding.md). `Selects` says the rows of R64 by the fields of the word. The decoder and the encoder
each agree with it, and so with one another; the words of R69 are those left over. -/

namespace Sys2Proof.Machine

/-! ### The rows of R64 by fields -/

/-- The word selects the command: it has the opcode of the command's row, its must-be-zero bits are 0, and the other
fields hold the operands, a pixel value standing in `b[0]` (R60, R63, R64). -/
def Selects (w : Word) : Instr → Prop
  | .construct n => opField w = 0x1 ∧ yField w = 0 ∧ bField w = 0 ∧ (xField w).toNat = n
  | .getPixel x y => opField w = 0x2 ∧ (yField w).toNat = y ∧ bField w = 0 ∧ (xField w).toNat = x
  | .setPixel x y v => opField w = 0x3 ∧ (yField w).toNat = y ∧
      ((bField w).toNat < 2 ∧ (bField w).getLsbD 0 = v) ∧ (xField w).toNat = x
  | .setPixelExp x y v => opField w = 0x4 ∧ (yField w).toNat = y ∧
      ((bField w).toNat < 2 ∧ (bField w).getLsbD 0 = v) ∧ (xField w).toNat = x
  | .getColumn x => opField w = 0x5 ∧ yField w = 0 ∧ bField w = 0 ∧ (xField w).toNat = x
  | .shiftLeft c => opField w = 0x6 ∧ yField w = 0 ∧ bField w = c ∧ xField w = 0
  | .rawRead y seg => opField w = 0x7 ∧ (yField w).toNat = y ∧ bField w = 0 ∧ (xField w).toNat = seg
  | .clear => opField w = 0x8 ∧ yField w = 0 ∧ bField w = 0 ∧ xField w = 0
  | .encInit => opField w = 0x9 ∧ yField w = 0 ∧ bField w = 0 ∧ xField w = 0
  | .encRefresh => opField w = 0xA ∧ yField w = 0 ∧ bField w = 0 ∧ xField w = 0
  | .readSegcount => opField w = 0xB ∧ yField w = 0 ∧ bField w = 0 ∧ xField w = 0

/-- A command comes out of the decoder only by its own row, whose test has then succeeded. -/
theorem selects_of_decode {w : Word} {i : Instr} (h : decode w = .ok i) : Selects w i := by
  rw [decode_by_fields] at h
  split at h
  case h_12 => cases h
  all_goals
    split at h
    case isFalse => cases h
    case isTrue hrow =>
      cases h
      simp only [Selects, hrow, and_self]

/-- The opcode leads to the command's row, whose test succeeds. -/
theorem decode_of_selects {w : Word} {i : Instr} (h : Selects w i) : decode w = .ok i := by
  cases i <;>
  · simp only [Selects] at h
    simp [decode_by_fields, h, -BitVec.getLsbD_eq_getElem]

/-! ### The encoder -/

/-- The word packed from fields is `w` exactly when they are `w`'s own. -/
theorem packFields_eq_iff (w : Word) (op y : BitVec 4) (b : BitVec 8) (x : BitVec 16) :
    packFields op y b x = w ↔ opField w = op ∧ yField w = y ∧ bField w = b ∧ xField w = x := by
  conv_lhs => rw [eq_comm, ← packFields_fields w, packFields_inj]

/-- Field `x` holds `n` exactly when `n` fits it and was put there (R9). -/
theorem toNat_eq_iff_fitsX (v : BitVec 16) (n : Nat) : v.toNat = n ↔ fitsX n = true ∧ v = BitVec.ofNat 16 n := by
  rw [fitsX, decide_eq_true_iff, ← BitVec.toNat_inj, BitVec.toNat_ofNat]
  omega

/-- Field `y` holds `n` exactly when `n` fits it and was put there (R9). -/
theorem toNat_eq_iff_fitsY (v : BitVec 4) (n : Nat) : v.toNat = n ↔ fitsY n = true ∧ v = BitVec.ofNat 4 n := by
  rw [fitsY, decide_eq_true_iff, ← BitVec.toNat_inj, BitVec.toNat_ofNat]
  omega

/-- `b[7:1]` = 0 and `b[0]` = v, in one equation (R63). -/
theorem eq_pixelByte_iff (b : BitVec 8) (v : Bool) : b.toNat < 2 ∧ b.getLsbD 0 = v ↔ b = pixelByte v := by
  constructor
  · rintro ⟨hlt, rfl⟩
    exact (pixelByte_getLsbD hlt).symm
  · rintro rfl
    exact ⟨pixelByte_lt v, getLsbD_pixelByte v⟩

/-- A word selects a command exactly when the command's operands fit and the word is the command's: both sides ask the
same of each field. -/
theorem selects_iff_encode (w : Word) (i : Instr) : Selects w i ↔ i.wellFormed = true ∧ encode i = w := by
  cases i <;>
  · simp only [Selects, Instr.wellFormed, encode, packFields_eq_iff, toNat_eq_iff_fitsX, toNat_eq_iff_fitsY,
      eq_pixelByte_iff, Bool.and_eq_true]
    tauto

/-- The decoder and the encoder agree (R60, R64). -/
theorem decode_eq_ok_iff_encode (w : Word) (i : Instr) : decode w = .ok i ↔ i.wellFormed = true ∧ encode i = w :=
  ⟨fun h => (selects_iff_encode w i).mp (selects_of_decode h),
    fun h => decode_of_selects ((selects_iff_encode w i).mpr h)⟩

/-- Settles O2: the word of a well-formed command selects it. -/
theorem decodeOfEncodeGivesTheCommand : Obligations.DecodeOfEncodeGivesTheCommand :=
  fun i hfits => (decode_eq_ok_iff_encode (encode i) i).mpr ⟨hfits, rfl⟩

/-- Settles O3: a word that decodes selects its command, and only the command's own word does. -/
theorem encodeOfDecodeGivesTheWord : Obligations.EncodeOfDecodeGivesTheWord :=
  fun w i hdecode => (decode_eq_ok_iff_encode w i).mp hdecode

/-- Settles O1: the decoder run on each word. -/
theorem decodesTheExampleWords : Obligations.DecodesTheExampleWords :=
  ⟨rfl, rfl, rfl, rfl, rfl, rfl, rfl, rfl, rfl, rfl, rfl⟩

/-! ### Illegal words -/

/-- The row of a word's opcode answers with an error exactly when its test fails. -/
theorem row_error_iff (test : Prop) [Decidable test] (i : Instr) :
    (∃ e, (if test then Except.ok i else Except.error Illegal.mustBeZero) = .error e) ↔ ¬test := by
  by_cases htest : test <;> simp [htest]

/-- R69: under its opcode each row refuses the words with a must-be-zero field that is not, and the other opcodes have
no row. -/
theorem decode_eq_error_iff (w : Word) : (∃ e, decode w = .error e) ↔ IllegalFields w := by
  rw [decode_by_fields]
  split
  case h_12 =>
    simp only [imp_false] at *
    have hreserved : (opField w).toNat = 0 ∨ 12 ≤ (opField w).toNat := by omega
    exact ⟨fun _ => hreserved.imp_right .inl, fun _ => ⟨_, rfl⟩⟩
  all_goals
    rename_i hop
    simp only [row_error_iff, IllegalFields, ← BitVec.toNat_inj (x := opField w), hop, not_and_or, not_lt, ne_eq]
    simp

/-- Settles O4: the words of R69 are those that do not decode, and such a word ends with ILLEGAL. -/
theorem illegalWordsEndIllegalAndChangeNothing : Obligations.IllegalWordsEndIllegalAndChangeNothing := by
  intro s w later hready
  constructor
  · intro hillegal
    obtain ⟨e, hdecode⟩ := (decode_eq_error_iff w).mpr hillegal
    exact step_illegal hready hdecode
  · intro hlegal
    cases hdecode : decode w with
    | ok i => exact ⟨i, rfl⟩
    | error e => exact absurd ((decode_eq_error_iff w).mp ⟨e, hdecode⟩) hlegal

end Sys2Proof.Machine
end

section
/-! The assembler (30_encoding.md, R72, R73): which operands each mnemonic takes. -/

namespace Sys2Proof.Machine

theorem fitsX_iff (x : Nat) : fitsX x = true ↔ x ≤ 65535 := by
  rw [fitsX, decide_eq_true_iff, Nat.lt_succ_iff]

theorem fitsY_iff (y : Nat) : fitsY y = true ↔ y ≤ 15 := by
  rw [fitsY, decide_eq_true_iff, Nat.lt_succ_iff]

/-- A line whose operands stand in the command as they are gives it exactly when they fit (R72). -/
theorem fitted_eq_ite {i : Instr} {fits : Prop} [Decidable fits] (h : i.wellFormed = true ↔ fits) :
    fitted i = if fits then some i else none :=
  if_congr h rfl rfl

theorem pixelOperand_eq_ite (v : Nat) : pixelOperand v = if v ≤ 1 then some (v == 1) else none := by
  match v with
  | 0 => rfl
  | 1 => rfl
  | _ + 2 => rfl

/-- Either pixel write takes a value of 0 or 1 beside its coordinates (R72). -/
theorem pixelWrite_eq_ite (write : Bool → Instr) {x y : Nat} (v : Nat)
    (h : ∀ on, (write on).wellFormed = true ↔ x ≤ 65535 ∧ y ≤ 15) :
    (pixelOperand v).bind (fun on => fitted (write on))
      = if x ≤ 65535 ∧ y ≤ 15 ∧ v ≤ 1 then some (write (v == 1)) else none := by
  rw [pixelOperand_eq_ite]
  by_cases hv : v ≤ 1
  · simp only [hv, and_true]
    exact fitted_eq_ite (h (v == 1))
  · simp only [hv, and_false, if_false, Option.bind_none]

/-- `shl` takes a byte (R72). -/
theorem shiftLeft_eq_ite (b : Nat) :
    (byteOperand b).bind (fun c => fitted (.shiftLeft c))
      = if b ≤ 255 then some (.shiftLeft (BitVec.ofNat 8 b)) else none := by
  rw [byteOperand, if_congr Nat.lt_succ_iff rfl rfl]
  split <;> rfl

/-- Settles O45: each mnemonic leads to its command, whose operands are then held to their fields. -/
theorem assemblerFollowsTheSyntaxTable : Obligations.AssemblerFollowsTheSyntaxTable := by
  intro a b v
  have hxy : (fitsX a && fitsY b) = true ↔ a ≤ 65535 ∧ b ≤ 15 :=
    Bool.and_eq_true_iff.trans (and_congr (fitsX_iff a) (fitsY_iff b))
  have hyseg : (fitsY a && fitsX b) = true ↔ a ≤ 15 ∧ b ≤ 65535 :=
    Bool.and_eq_true_iff.trans (and_congr (fitsY_iff a) (fitsX_iff b))
  exact ⟨fitted_eq_ite (fitsX_iff a), fitted_eq_ite hxy, pixelWrite_eq_ite (.setPixel a b) v fun _ => hxy,
    pixelWrite_eq_ite (.setPixelExp a b) v fun _ => hxy, fitted_eq_ite (fitsX_iff a), shiftLeft_eq_ite a,
    fitted_eq_ite hyseg, rfl, rfl, rfl, rfl, rfl, rfl, rfl⟩

end Sys2Proof.Machine
end

section
/-! The commands of one pixel, one byte or one column (40_framebuffer.md): each datum is read bit by bit as pixels, and
each write byte by byte. -/

namespace Sys2Proof.Machine

/-- Operands `x` and `y` that fit their fields (R9). -/
theorem fitsX_and_fitsY {x y : Nat} (hx : x < 65536) (hy : y < 16) : (fitsX x && fitsY y) = true := by
  rw [fitsX, fitsY, decide_eq_true hx, decide_eq_true hy]
  rfl

/-! ### Reads -/

/-- Settles O26: `pixel` by its definition, the bounds and the bit. -/
theorem getPixelAnswersThePixel : Obligations.GetPixelAnswersThePixel := by
  intro x y s
  refine ⟨fun hx hy => decodeOfEncodeGivesTheCommand (.getPixel x y) (fitsX_and_fitsY hx hy), ?_⟩
  have hdatum : pixelData (pixel s x y) =
      if y < 8 ∧ x < 8 * s.segCount ∧ (s.mem.read (cellAddr s.cfg y (x / 8))).getLsbD (x % 8) = true
        then 0x0001 else 0x0000 :=
    if_congr (by rw [pixel_eq, Bool.and_eq_true, decide_eq_true_iff, and_assoc]; rfl) rfl rfl
  rw [execGetPixel_eq, hdatum]

/-- A byte answered in the low half of `RSP_DATA`: its bits, and 0 above them (R66). -/
theorem getLsbD_byteData (b : Byte) (i : Nat) : (b.setWidth 16 : Data).getLsbD i = b.getLsbD i := by
  rw [BitVec.getLsbD_setWidth]
  by_cases hi : i < 8
  · simp [show i < 16 by omega]
  · rw [BitVec.getLsbD_of_ge b i (not_lt.mp hi), Bool.and_false]

/-- Settles O31: the bits of the column byte are its pixels (R89). -/
theorem getColumnPacksOneBitPerRow : Obligations.GetColumnPacksOneBitPerRow := by
  intro x s
  refine ⟨fun hx => decodeOfEncodeGivesTheCommand (.getColumn x) (decide_eq_true hx), _, execGetColumn_eq x s,
    fun i _ => ?_, fun i hi => ?_⟩
  · rw [getLsbD_byteData, getLsbD_columnByte]
  · rw [getLsbD_byteData, BitVec.getLsbD_of_ge _ _ hi]

/-- Bit b of raw byte (y, seg) is pixel (8·seg + b, y), both being 0 out of range (R93, R40). -/
theorem getLsbD_rawByte (s : State) (y seg : Nat) {b : Nat} (hb : b < 8) :
    (rawByte s y seg).getLsbD b = pixel s (8 * seg + b) y := by
  unfold rawByte
  split
  case isTrue hin =>
    rw [pixel_of_inBounds hin.1 (by omega), show (8 * seg + b) / 8 = seg by omega,
      show (8 * seg + b) % 8 = b by omega]
  case isFalse hout =>
    rw [pixel_of_not_inBounds (fun hin => hout ⟨hin.1, by omega⟩)]
    exact BitVec.getLsbD_zero

/-- Settles O34: the datum is the raw byte, and its bits are pixels. -/
theorem rawReadAnswersTheByte : Obligations.RawReadAnswersTheByte := by
  intro y seg s
  refine ⟨fun hy hseg => decodeOfEncodeGivesTheCommand (.rawRead y seg) ?_, _, execRawRead_eq y seg s, rfl,
    fun b hb => ?_⟩
  · exact (Bool.and_comm _ _).trans (fitsX_and_fitsY hseg hy)
  · rw [getLsbD_byteData, getLsbD_rawByte s y seg hb]

/-- Settles O36: 8192 segments fit 16 bits. -/
theorem readSegcountAnswersTheCount : Obligations.ReadSegcountAnswersTheCount := by
  refine ⟨decodeOfEncodeGivesTheCommand .readSegcount rfl, fun s hS => ⟨_, execReadSegcount_eq s, ?_⟩⟩
  rw [BitVec.toNat_ofNat, Nat.mod_eq_of_lt (by omega)]

/-! ### The pixel write -/

/-- Settles O27: in bounds the bits of `setBit` and the frame of the pixel write, out of bounds the response alone. -/
theorem setPixelWritesOneBit : Obligations.SetPixelWritesOneBit := by
  intro x y v s
  refine ⟨fun hx hy => decodeOfEncodeGivesTheCommand (.setPixel x y v) (fitsX_and_fitsY hx hy), fun hy hx => ?_,
    fun hout => ?_⟩
  · refine ⟨(writePixel x y v s).mem, ?_, fun i hi => ?_, fun a ha => ?_⟩
    · rw [execSetPixel_of_inBounds v hy hx, ← writePixel_eq]
    · rw [read_writePixel, if_pos ⟨hy, rfl⟩, getLsbD_setBit _ _ _ hi]
      rfl
    · rw [read_writePixel, if_neg (fun hat => ha hat.2)]
  · rcases execSetPixel_cases x y v s with ⟨hin, -⟩ | ⟨-, e⟩
    · exact absurd hin hout
    · exact e

end Sys2Proof.Machine
end

section
/-! Segments zeroed below a new width: a blank buffer (CONSTRUCT R80, CLEAR R94), and the growth of SET_PIXEL_EXP (R86)
with its law (R87). -/

namespace Sys2Proof.Machine

/-! ### Blank buffers -/

/-- Zeroing writes no byte but those of its segments. -/
theorem read_zeroedTo_of_forall_ne {lo hi : Nat} {s : State} {a : Nat} (hhi : hi ≤ s.cfg.sMax)
    (ha : ∀ y seg, y < 8 → lo ≤ seg → seg < hi → a ≠ cellAddr s.cfg y seg) :
    (zeroedTo lo hi s).mem.read a = s.mem.read a := by
  have hnot : ¬inSegments s.cfg lo hi a = true := fun hin => by
    obtain ⟨y, seg, hy, hlo, hseg, rfl⟩ := (inSegments_iff hhi).mp hin
    exact ha y seg hy hlo hseg rfl
  exact (read_zeroSegments lo hi s a).trans (if_neg hnot)

section
variable {n : Nat} {s : State} (hn : n ≤ s.cfg.sMax)
include hn

/-- A buffer zeroed from segment 0 on has every visible byte 0x00. -/
theorem memRead_zeroedTo_blank {y seg : Nat} (hy : y < 8) (hseg : seg < n) : memRead (zeroedTo 0 n s) y seg = 0x00 := by
  rw [memRead_zeroedTo hn (by omega), if_pos ⟨hy, Nat.zero_le _, hseg⟩]
  rfl

/-- It has every pixel off (R81). -/
theorem pixel_zeroedTo_blank (x y : Nat) : pixel (zeroedTo 0 n s) x y = false := by
  by_cases hin : y < 8 ∧ x < 8 * n
  · rw [pixel_of_inBounds hin.1 hin.2, memRead_zeroedTo_blank hn hin.1 (by omega)]
    exact BitVec.getLsbD_zero
  · exact pixel_of_not_inBounds hin

/-- It keeps the bytes that are not visible in it (R21). -/
theorem read_zeroedTo_blank_of_not_visible {a : Nat} (ha : ¬VisibleAddr { s with segCount := n } a) :
    (zeroedTo 0 n s).mem.read a = s.mem.read a :=
  read_zeroedTo_of_forall_ne hn fun y seg hy _ hseg heq => ha ⟨y, seg, hy, hseg, heq⟩

end

/-- Settles O25: the three ways of `execConstruct_cases`, the last of which leaves a blank buffer. -/
theorem constructStartsABlankBuffer : Obligations.ConstructStartsABlankBuffer := by
  intro w s
  refine ⟨fun hw => decodeOfEncodeGivesTheCommand (.construct w) (decide_eq_true hw), ?_⟩
  rcases execConstruct_cases w s with ⟨hodd, e⟩ | ⟨heven, hover, e⟩ | ⟨heven, hfits, e⟩
  · exact ⟨fun _ => e, fun h => absurd h hodd, fun h => absurd h hodd⟩
  · exact ⟨absurd heven, fun _ _ => e, fun _ hfits => absurd hover (not_lt.mpr hfits)⟩
  · exact ⟨absurd heven, fun _ hover => absurd hover (not_lt.mpr hfits), fun _ _ =>
      ⟨_, e, pixel_zeroedTo_blank hfits, fun _ _ => memRead_zeroedTo_blank hfits,
        fun _ => read_zeroedTo_blank_of_not_visible hfits⟩⟩

/-- Settles O35: a blank buffer of the same width. -/
theorem clearTurnsEveryPixelOff : Obligations.ClearTurnsEveryPixelOff :=
  ⟨decodeOfEncodeGivesTheCommand .clear rfl, fun s hS => ⟨_, execClear_eq s, fun _ _ => memRead_zeroedTo_blank hS,
    pixel_zeroedTo_blank hS, fun _ => read_zeroedTo_blank_of_not_visible hS⟩⟩

/-! ### Growth -/

/-- The buffer a SET_PIXEL_EXP that fits writes its pixel in: grown if the segment of column x is not there (R86). -/
def withColumn (x : Nat) (s : State) : State := if x / 8 < s.segCount then s else growTo x s

/-- Growth sets S and writes bytes, and nothing else. -/
theorem withColumn_eq (x : Nat) (s : State) :
    withColumn x s = { s with segCount := max s.segCount (x / 8 + 1), mem := (withColumn x s).mem } := by
  unfold withColumn
  split
  case isTrue hx => rw [Nat.max_eq_left hx]
  case isFalse hx => rw [Nat.max_eq_right (by omega)]; rfl

@[simp] theorem withColumn_cfg (x : Nat) (s : State) : (withColumn x s).cfg = s.cfg := by
  rw [withColumn_eq]

@[simp] theorem withColumn_segCount (x : Nat) (s : State) :
    (withColumn x s).segCount = max s.segCount (x / 8 + 1) := by
  rw [withColumn_eq]

/-- Growth keeps every byte but the new ones. -/
theorem read_withColumn_other {s : State} {x a : Nat} (hfits : x / 8 < s.segCount ∨ x / 8 + 1 ≤ s.cfg.sMax)
    (ha : ∀ y seg, y < 8 → s.segCount ≤ seg → seg ≤ x / 8 → a ≠ cellAddr s.cfg y seg) :
    (withColumn x s).mem.read a = s.mem.read a := by
  unfold withColumn
  split
  case isTrue => rfl
  case isFalse hx =>
    rw [growTo_eq_zeroedTo]
    exact read_zeroedTo_of_forall_ne (hfits.resolve_left hx)
      fun y seg hy hlo hseg => ha y seg hy hlo (Nat.le_of_lt_succ hseg)

/-- Growth shows only pixels that are off, and keeps those already shown. -/
theorem pixel_withColumn {s : State} {x : Nat} (hfits : x / 8 < s.segCount ∨ x / 8 + 1 ≤ s.cfg.sMax) (x' y' : Nat) :
    pixel (withColumn x s) x' y' = pixel s x' y' := by
  unfold withColumn
  split
  case isTrue => rfl
  case isFalse hx =>
    have hroom := hfits.resolve_left hx
    rw [growTo_eq_zeroedTo]
    by_cases hnew : y' < 8 ∧ x' < 8 * (x / 8 + 1)
    · rw [pixel_of_inBounds hnew.1 hnew.2, memRead_zeroedTo hroom (by omega)]
      by_cases hold : x' < 8 * s.segCount
      · rw [if_neg (by omega), pixel_of_inBounds hnew.1 hold]
      · rw [if_pos (by omega), pixel_of_not_inBounds (fun h => hold h.2)]
        exact BitVec.getLsbD_zero
    · rw [pixel_of_not_inBounds hnew, pixel_of_not_inBounds (by omega)]

/-- A SET_PIXEL_EXP that fits ends OK: it grows the buffer if it must, and writes the pixel. -/
theorem execSetPixelExp_of_fits {s : State} {x : Nat} (hfits : x / 8 < s.segCount ∨ x / 8 + 1 ≤ s.cfg.sMax) (y : Nat)
    (v : Bool) : exec (.setPixelExp x y v) s = .next (withResponse 0 0 (writePixel x y v (withColumn x s))) := by
  unfold withColumn
  rcases execSetPixelExp_cases x y v s with ⟨hx, e⟩ | ⟨hx, hover, -⟩ | ⟨hx, -, e⟩
  · rw [e, if_pos hx, ← writePixel_eq x y v s]
  · omega
  · rw [e, if_neg (not_lt.mpr hx), writePixel_eq x y v (growTo x s)]
    rfl

/-- Within the width SET_PIXEL_EXP is SET_PIXEL: a row that does not exist is out of bounds for the one and not written
by the other. -/
theorem execSetPixelExp_eq_execSetPixel {s : State} {x : Nat} (hx : x / 8 < s.segCount) (y : Nat) (v : Bool) :
    exec (.setPixelExp x y v) s = exec (.setPixel x y v) s := by
  rw [execSetPixelExp_of_fits (.inl hx), withColumn, if_pos hx]
  by_cases hy : y < 8
  · rw [execSetPixel_of_inBounds v hy (by omega)]
  · rcases execSetPixel_cases x y v s with ⟨hin, -⟩ | ⟨-, e⟩
    · exact absurd hin.1 hy
    · rw [e, writePixel, if_neg hy]

/-- Growth beyond S_MAX ends with CAPACITY and changes nothing. -/
theorem execSetPixelExp_of_not_fits {s : State} {x : Nat} (hnew : s.segCount ≤ x / 8) (hover : s.cfg.sMax < x / 8 + 1)
    (y : Nat) (v : Bool) : exec (.setPixelExp x y v) s = .next (withResponse 3 0 s) := by
  rcases execSetPixelExp_cases x y v s with ⟨hx, -⟩ | ⟨-, -, e⟩ | ⟨-, hfits, -⟩
  · omega
  · exact e
  · omega

/-- Settles O29: the pixel write in the buffer of `withColumn`. -/
theorem setPixelExpandingGrowsThenWrites : Obligations.SetPixelExpandingGrowsThenWrites := by
  intro x y v s hS
  refine ⟨fun hx hy => decodeOfEncodeGivesTheCommand (.setPixelExp x y v) (fitsX_and_fitsY hx hy),
    fun hx => execSetPixelExp_eq_execSetPixel hx y v, fun hnew hover => execSetPixelExp_of_not_fits hnew hover y v,
    fun hfits => ?_⟩
  have hstate : writePixel x y v (withColumn x s) =
      { s with segCount := max s.segCount (x / 8 + 1), mem := (writePixel x y v (withColumn x s)).mem } := by
    rw [writePixel_eq, withColumn_eq]
  refine ⟨(writePixel x y v (withColumn x s)).mem, ?_, fun x' y' => ?_, fun a hpixel hnew => ?_⟩
  · rw [← hstate]
    exact execSetPixelExp_of_fits hfits y v
  · rw [← hstate, pixel_writePixel (by simp only [withColumn_segCount, withColumn_cfg]; omega)
      (by rw [withColumn_segCount]; omega), pixel_withColumn hfits]
  · rw [read_writePixel, withColumn_cfg, if_neg (fun hat => hpixel hat.1 hat.2), read_withColumn_other hfits hnew]

/-! ### The growth law -/

/-- A SET_PIXEL_EXP that ends OK has left the width column x needs, or a greater one that was there (R87). -/
theorem segCount_of_execSetPixelExp {x y : Nat} {v : Bool} {s t : State} (h : exec (.setPixelExp x y v) s = .next t)
    (hok : t.rspStatus = 0) : t.segCount = max s.segCount (x / 8 + 1) := by
  by_cases hfits : x / 8 < s.segCount ∨ x / 8 + 1 ≤ s.cfg.sMax
  · rw [execSetPixelExp_of_fits hfits] at h
    cases h
    rw [withResponse_segCount, writePixel_segCount, withColumn_segCount]
  · rw [execSetPixelExp_of_not_fits (by omega) (by omega)] at h
    cases h
    exact absurd hok (show (3 : BitVec 3) ≠ 0 by decide)

/-- The SET_PIXEL_EXP of a list of pixels and values. -/
def expandingWrites (writes : List (Nat × Nat × Bool)) : List Instr :=
  writes.map (fun p => .setPixelExp p.1 p.2.1 p.2.2)

/-- A sequence of SET_PIXEL_EXP within the capacity completes, and S is then the least width that is not below the
width before nor below what any of its columns needs. -/
theorem execAll_expandingWrites (writes : List (Nat × Nat × Bool)) (s : State)
    (hfits : ∀ p ∈ writes, p.1 / 8 + 1 ≤ s.cfg.sMax) :
    ∃ t, execAll (expandingWrites writes) s = .next t ∧
      ∀ k, t.segCount ≤ k ↔ s.segCount ≤ k ∧ ∀ p ∈ writes, p.1 / 8 + 1 ≤ k := by
  induction writes generalizing s with
  | nil => exact ⟨s, rfl, by simp⟩
  | cons p rest ih =>
    have hfirst := execSetPixelExp_of_fits (.inr (hfits p (List.mem_cons_self ..))) p.2.1 p.2.2
    obtain ⟨t, ht, hleast⟩ := ih (withResponse 0 0 (writePixel p.1 p.2.1 p.2.2 (withColumn p.1 s)))
      (fun q hq => by
        rw [withResponse_cfg, writePixel_cfg, withColumn_cfg]
        exact hfits q (List.mem_cons_of_mem p hq))
    refine ⟨t, ?_, fun k => ?_⟩
    · simp only [expandingWrites, List.map_cons, execAll, hfirst]
      exact ht
    · rw [hleast, withResponse_segCount, writePixel_segCount, withColumn_segCount, Nat.max_le, List.forall_mem_cons,
        and_assoc]

/-- Settles O30: S is least among the widths that hold every column (`execAll_expandingWrites`), of the whole sequence
and of each of its beginnings. -/
theorem growthLaw : Obligations.GrowthLaw := by
  refine ⟨fun x y v s t => segCount_of_execSetPixelExp, fun writes m s hmax hle hcap => ?_⟩
  have hfits : ∀ p ∈ writes, p.1 / 8 + 1 ≤ s.cfg.sMax := fun p hp =>
    (Nat.succ_le_succ (Nat.div_le_div_right (hle p hp))).trans hcap
  obtain ⟨t, ht, hleast⟩ := execAll_expandingWrites writes s hfits
  obtain ⟨hbefore, hcolumns⟩ := (hleast t.segCount).mp le_rfl
  have hwidth : t.segCount = max s.segCount ((m + 1 + 7) / 8) := by
    obtain ⟨p, hp, rfl⟩ := hmax
    have hlower := hcolumns p hp
    have hupper := (hleast (max s.segCount (p.1 / 8 + 1))).mpr ⟨by omega, fun q hq => by have := hle q hq; omega⟩
    omega
  refine ⟨t, ht, hwidth, fun p hp hstart => ?_, fun n => ?_⟩
  · have := hle p (List.mem_of_mem_head? hp)
    omega
  · obtain ⟨u, hu, hleast'⟩ := execAll_expandingWrites (writes.take n) s
      (fun p hp => hfits p (List.mem_of_mem_take hp))
    refine ⟨u, ?_, ((hleast' u.segCount).mp le_rfl).1, ?_⟩
    · rw [← List.map_take]
      exact hu
    · exact (hleast' t.segCount).mpr ⟨hbefore, fun p hp => hcolumns p (List.mem_of_mem_take hp)⟩

end Sys2Proof.Machine
end

section
/-! The shift (R90, R91) and the rotation law (R92). `RotatedBy n` says of two buffers that one is the other with every
row rotated left by n pixels; a pair of GET_COLUMN(0) and SHIFT_LEFT is such a step with n = 1, and a full turn leaves
the same bytes. -/

namespace Sys2Proof.Machine

/-! ### One shift -/

/-- Every pixel takes the one on its right, the last of its row the incoming bit (R91). -/
theorem pixel_shiftRows (c : Byte) {s : State} (hS : s.segCount ≤ s.cfg.sMax) {x y : Nat} (hy : y < 8)
    (hx : x < 8 * s.segCount) :
    pixel (shiftRows c 8 s).1 x y = if x + 1 < 8 * s.segCount then pixel s (x + 1) y else c.getLsbD y := by
  rw [pixel_of_inBounds hy (by simpa using hx), memRead_shiftRows c 8 s hS (by omega), if_pos ⟨hy, by omega⟩,
    getLsbD_shiftByte _ _ (by omega)]
  by_cases hlast : x % 8 = 7
  · rw [if_pos hlast]
    by_cases hright : x + 1 < 8 * s.segCount
    · rw [if_pos hright, if_pos (by omega), pixel_of_inBounds hy hright, show (x + 1) / 8 = x / 8 + 1 by omega,
        show (x + 1) % 8 = 0 by omega]
    · rw [if_neg hright, if_neg (by omega)]
  · rw [if_neg hlast, if_pos (by omega), pixel_of_inBounds hy (by omega), show (x + 1) / 8 = x / 8 by omega,
      show (x + 1) % 8 = x % 8 + 1 by omega]

/-- What leaves the rows: column 0, or with no column the incoming byte (R90, R91). -/
theorem getLsbD_shiftRows_answer (c : Byte) {s : State} (hS : s.segCount ≤ s.cfg.sMax) {y : Nat} (hy : y < 8) :
    (shiftRows c 8 s).2.getLsbD y = if s.segCount = 0 then c.getLsbD y else pixel s 0 y := by
  rw [getLsbD_shiftRows_out c 8 s hS, decide_eq_true hy, Bool.true_and, Bool.true_and]
  split
  case isTrue => rfl
  case isFalse hne => rw [pixel_of_inBounds hy (by omega)]

/-- With S = 0 the inner loops of R90 are empty. -/
theorem shiftRows_of_segCount_eq_zero (c : Byte) (n : Nat) {s : State} (h : s.segCount = 0) :
    (shiftRows c n s).1 = s := by
  induction n with
  | zero => rfl
  | succ n ih => rw [shiftRows, h, shiftRow, ih]

/-- Settles O32: the bits of the answer and the pixels after the shift, case by case. -/
theorem shiftLeftMovesEveryPixel : Obligations.ShiftLeftMovesEveryPixel := by
  intro c s hS
  refine ⟨decodeOfEncodeGivesTheCommand (.shiftLeft c) rfl, _, _, execShiftLeft_eq c s, fun i hi => ?_,
    fun hpos y hy => ?_, fun hzero => ?_, fun a => read_shiftRows_other c 8 le_rfl s a⟩
  · rw [getLsbD_byteData, BitVec.getLsbD_of_ge _ _ hi]
  · rw [← shiftRows_eq]
    refine ⟨?_, ?_, fun x hx => ?_⟩
    · rw [getLsbD_byteData, getLsbD_shiftRows_answer c hS hy, if_neg (by omega)]
    · rw [pixel_shiftRows c hS hy (by omega), if_neg (by omega)]
    · rw [pixel_shiftRows c hS hy (by omega), if_pos hx]
  · refine ⟨congrArg _ (BitVec.eq_of_getLsbD_eq fun y hy => ?_), by rw [shiftRows_of_segCount_eq_zero c 8 hzero]⟩
    rw [getLsbD_shiftRows_answer c hS hy, if_pos hzero]

/-! ### Rotations -/

/-- `u` is `s` with every row rotated left by `n` pixels; the bytes that are not visible are those of `s`. -/
structure RotatedBy (n : Nat) (s u : State) : Prop where
  cfg_eq : u.cfg = s.cfg
  segCount_eq : u.segCount = s.segCount
  wf : u.mem.wf = true
  pixel_eq : ∀ x y, x < 8 * s.segCount → pixel u x y = pixel s ((x + n) % (8 * s.segCount)) y
  kept : ∀ a, ¬VisibleAddr s a → u.mem.read a = s.mem.read a

theorem RotatedBy.zero {s : State} (hwf : s.mem.wf = true) : RotatedBy 0 s s :=
  ⟨rfl, rfl, hwf, fun x y hx => by rw [Nat.add_zero, Nat.mod_eq_of_lt hx], fun _ _ => rfl⟩

/-- Two states of one geometry have the same visible addresses. -/
theorem RotatedBy.visibleAddr_iff {n : Nat} {s t : State} (h : RotatedBy n s t) (a : Nat) :
    VisibleAddr t a ↔ VisibleAddr s a := by
  rw [VisibleAddr, VisibleAddr, h.cfg_eq, h.segCount_eq]

theorem RotatedBy.trans {m n : Nat} {s t u : State} (hst : RotatedBy m s t) (htu : RotatedBy n t u) :
    RotatedBy (n + m) s u where
  cfg_eq := htu.cfg_eq.trans hst.cfg_eq
  segCount_eq := htu.segCount_eq.trans hst.segCount_eq
  wf := htu.wf
  pixel_eq x y hx := by
    rw [htu.pixel_eq x y (by rwa [hst.segCount_eq]), hst.segCount_eq, hst.pixel_eq _ y (Nat.mod_lt _ (by omega)),
      Nat.mod_add_mod, Nat.add_assoc]
  kept a ha := (htu.kept a (mt (hst.visibleAddr_iff a).mp ha)).trans (hst.kept a ha)

/-- A visible byte is its eight pixels (R40). -/
theorem memRead_eq_of_pixel_eq {s u : State} (hS : u.segCount = s.segCount) {y seg : Nat} (hy : y < 8)
    (hseg : seg < s.segCount) (h : ∀ x, x < 8 * s.segCount → pixel u x y = pixel s x y) :
    memRead u y seg = memRead s y seg := by
  refine BitVec.eq_of_getLsbD_eq fun b hb => ?_
  have hpixel := h (8 * seg + b) (by omega)
  rwa [pixel_of_inBounds hy (by omega), pixel_of_inBounds hy (by omega), show (8 * seg + b) / 8 = seg by omega,
    show (8 * seg + b) % 8 = b by omega] at hpixel

/-- A rotation by whole turns leaves the array as it was; so does any rotation of no columns. -/
theorem RotatedBy.mem_eq {n : Nat} {s u : State} (h : RotatedBy n s u) (hwf : s.mem.wf = true)
    (hturn : s.segCount = 0 ∨ 8 * s.segCount ∣ n) : u.mem = s.mem := by
  refine Memory.eq_of_read_eq h.wf hwf fun a => ?_
  by_cases ha : VisibleAddr s a
  · obtain ⟨y, seg, hy, hseg, rfl⟩ := ha
    obtain ⟨k, rfl⟩ := hturn.resolve_left (by omega)
    have hbyte := memRead_eq_of_pixel_eq h.segCount_eq hy hseg fun x hx => by
      rw [h.pixel_eq x y hx, Nat.add_mul_mod_self_left, Nat.mod_eq_of_lt hx]
    rwa [memRead, memRead, h.cfg_eq] at hbyte
  · exact h.kept a ha

/-! ### The pair of GET_COLUMN(0) and SHIFT_LEFT -/

theorem wf_shiftRow {s : State} (h : s.mem.wf = true) (y n : Nat) (carry : Bool) :
    (shiftRow y n carry s).1.mem.wf = true := by
  induction n generalizing carry s with
  | zero => exact h
  | succ n ih => exact ih (s := memWrite s y n _) (Memory.wf_write h _ _) _

theorem wf_shiftRows {s : State} (h : s.mem.wf = true) (c : Byte) (n : Nat) : (shiftRows c n s).1.mem.wf = true := by
  induction n with
  | zero => exact h
  | succ n ih => exact wf_shiftRow ih n _ _

section
variable {s : State} (hS : s.segCount ≤ s.cfg.sMax)
include hS

/-- SHIFT_LEFT of column 0 answers column 0, also with no column (R92). -/
theorem execShiftLeft_columnByte :
    exec (.shiftLeft (columnByte s 0)) s
      = .next (withResponse 0 ((columnByte s 0).setWidth 16) (shiftRows (columnByte s 0) 8 s).1) := by
  have hanswer : (shiftRows (columnByte s 0) 8 s).2 = columnByte s 0 :=
    BitVec.eq_of_getLsbD_eq fun y hy => by
      rw [getLsbD_shiftRows_answer _ hS hy, getLsbD_columnByte, ite_self]
  rw [execShiftLeft_eq, ← shiftRows_eq, hanswer]

/-- SHIFT_LEFT of column 0 rotates by one pixel (R92). -/
theorem rotatedBy_shiftRows_columnByte (hwf : s.mem.wf = true) :
    RotatedBy 1 s (shiftRows (columnByte s 0) 8 s).1 where
  cfg_eq := shiftRows_cfg ..
  segCount_eq := shiftRows_segCount ..
  wf := wf_shiftRows hwf _ 8
  pixel_eq x y hx := by
    by_cases hy : y < 8
    · rw [pixel_shiftRows _ hS hy hx, getLsbD_columnByte]
      split
      case isTrue hright => rw [Nat.mod_eq_of_lt hright]
      case isFalse hlast => rw [show x + 1 = 8 * s.segCount by omega, Nat.mod_self]
    · rw [pixel_of_not_inBounds (fun h => hy h.1), pixel_of_not_inBounds (fun h => hy h.1)]
  kept := read_shiftRows_other _ 8 le_rfl s

end

/-- A response is no rotation. -/
theorem RotatedBy.withResponse {n : Nat} {s u : State} {st st' : BitVec 3} {d d' : Data}
    (h : RotatedBy n (withResponse st d s) u) : RotatedBy n s (Machine.withResponse st' d' u) :=
  ⟨h.cfg_eq, h.segCount_eq, h.wf, h.pixel_eq, h.kept⟩

/-- The column byte of a response, read back from `RSP_DATA`. -/
theorem setWidth_byteData (b : Byte) : (b.setWidth 16 : Data).setWidth 8 = b := by
  refine BitVec.eq_of_getLsbD_eq fun i hi => ?_
  rw [BitVec.getLsbD_setWidth, decide_eq_true hi, Bool.true_and, getLsbD_byteData]

/-- The pair shifts by column 0, from the state GET_COLUMN has answered in (R92). -/
theorem rotateOnce_eq (s : State) :
    rotateOnce s
      = exec (.shiftLeft (columnByte s 0)) (withResponse 0 ((columnByte s 0).setWidth 16) s) := by
  simp only [rotateOnce, execGetColumn_eq, withResponse_rspData, setWidth_byteData]

/-- The pair ends OK, rotates by one pixel and answers column 0 (R92). -/
theorem rotateOnce_next {s : State} (hwf : s.mem.wf = true) (hS : s.segCount ≤ s.cfg.sMax) :
    ∃ u, rotateOnce s = .next u ∧ RotatedBy 1 s u ∧ u.rspStatus = 0 ∧
      u.rspData = (columnByte s 0).setWidth 16 := by
  have hread : (withResponse 0 ((columnByte s 0).setWidth 16) s).segCount ≤ s.cfg.sMax := hS
  exact ⟨_, (rotateOnce_eq s).trans (execShiftLeft_columnByte hread),
    (rotatedBy_shiftRows_columnByte hread hwf).withResponse, rfl, rfl⟩

/-- `n` pairs rotate by `n` pixels. -/
theorem rotateTimes_next (n : Nat) {s : State} (hwf : s.mem.wf = true) (hS : s.segCount ≤ s.cfg.sMax) :
    ∃ u, rotateTimes n s = .next u ∧ RotatedBy n s u := by
  induction n generalizing s with
  | zero => exact ⟨s, rfl, .zero hwf⟩
  | succ n ih =>
    obtain ⟨t, ht, hfirst, -⟩ := rotateOnce_next hwf hS
    obtain ⟨u, hu, hrest⟩ := ih hfirst.wf (by rwa [hfirst.segCount_eq, hfirst.cfg_eq])
    exact ⟨u, by rw [rotateTimes, ht]; exact hu, hfirst.trans hrest⟩

/-- Settles O33: one pair is a rotation by one pixel, 8·S pairs a full turn. -/
theorem rotationLaw : Obligations.RotationLaw := by
  intro s hwf hS
  obtain ⟨u, hu, hrotated, hstatus, hdata⟩ := rotateOnce_next hwf hS
  obtain ⟨t, ht, hturned⟩ := rotateTimes_next (8 * s.segCount) hwf hS
  exact ⟨⟨_, u, execGetColumn_eq 0 s, hu, hstatus, hdata, hrotated.segCount_eq, hrotated.pixel_eq,
      fun hzero => hrotated.mem_eq hwf (.inl hzero)⟩,
    t, ht, hturned.mem_eq hwf (.inr dvd_rfl), hturned.segCount_eq⟩

end Sys2Proof.Machine
end

section
/-! Columns beyond the chain are never displayed (R96): the frames of a refresh are made of the raw bytes of the chain,
and sending them looks at neither `B` nor `S`. -/

namespace Sys2Proof.Machine

/-- `s` with another buffer. -/
def withBuffer (m : Memory) (n : Nat) (s : State) : State := { s with mem := m, segCount := n }

/-- Sending a plan does the same whatever buffer stands there, and leaves it standing. -/
theorem finishTransmit_withBuffer (m : Memory) (n : Nat) {plan : List (Sequencer × List Byte)} {s t : State}
    (h : finishTransmit (transmitAll plan s) = .next t) :
    finishTransmit (transmitAll plan (withBuffer m n s)) = .next (withBuffer m n t) := by
  induction plan generalizing s with
  | nil => cases h; rfl
  | cons f rest ih =>
    obtain ⟨pos, bytes⟩ := f
    have hanswer : answerAt (withBuffer m n s) 0 = answerAt s 0 := rfl
    simp only [transmitAll] at h ⊢
    rw [hanswer]
    cases hanswered : answerAt s 0 <;> simp only [hanswered] at h ⊢
    case ok => exact ih h
    case fail => cases h; rfl
    case silent => cases h

/-- The frames of a refresh depend on the raw bytes of rows 0..7 and the segments of the chain only (R124). -/
theorem refreshPlan_withBuffer {s : State} {m : Memory} {n : Nat}
    (h : ∀ y seg, y < 8 → seg < s.cfg.nSeg → rawByte (withBuffer m n s) y seg = rawByte s y seg) :
    refreshPlan (withBuffer m n s) = refreshPlan s := by
  refine List.flatMap_congr fun r hr => List.map_congr_left fun t ht => ?_
  have hrow : 1 ≤ r ∧ r < 1 + 8 := List.mem_range'_1.mp hr
  have hbyte := h (r - 1) t (by omega) (List.mem_range.mp ht)
  rw [refreshFrame, refreshFrame, hbyte]
  rfl

/-- Settles O43: the same frames, sent over another buffer. -/
theorem refreshShowsOnlyTheChain : Obligations.RefreshShowsOnlyTheChain := by
  intro s t m n hchain hexec
  have hplan : refreshPlan (withBuffer m n s) = refreshPlan s := refreshPlan_withBuffer hchain
  change finishTransmit (transmitAll (refreshPlan (withBuffer m n s)) (withBuffer m n s)) = .next (withBuffer m n t)
  rw [hplan]
  exact finishTransmit_withBuffer m n hexec

end Sys2Proof.Machine
end

section
/-! The row encoder (45_row_encoder.md): how an encoder command ends, said of the bytes of its plan's frames, and what
those bytes are. -/

namespace Sys2Proof.Machine

/-! ### How an encoder command ends -/

/-- Every transaction answered OK: an encoder command whose plan has these frames sends them all and ends OK (R121). -/
theorem execEncoder_allOk {i : Instr} {s : State} {frames : List (List Byte)} (hi : i = .encInit ∨ i = .encRefresh)
    (hframes : (planOf i s).map Prod.snd = frames) (hok : ∀ n < frames.length, answerAt s n = .ok) :
    exec i s = .next (withResponse 0 0 { s with
      seq := .idle, txScript := s.txScript.drop frames.length,
      txLog := s.txLog ++ frames.map (fun f => ⟨f, .ok⟩) }) := by
  subst hframes
  rw [List.length_map] at hok
  obtain ⟨q, hq⟩ := transmitAll_allOk hok
  rw [execEncoder_eq hi, hq, List.length_map, List.map_map]
  rfl

/-- The first transaction not answered OK fails: an encoder command whose plan has these frames has sent them up to and
including the failed one and ends with IO_ERROR (R121). -/
theorem execEncoder_failed {i : Instr} {s : State} {frames : List (List Byte)} {n : Nat} {frame : List Byte}
    (hi : i = .encInit ∨ i = .encRefresh) (hframes : (planOf i s).map Prod.snd = frames)
    (hframe : frames[n]? = some frame) (hok : ∀ m < n, answerAt s m = .ok) (hfail : answerAt s n = .fail) :
    exec i s = .next (withResponse 4 0 { s with
      seq := .idle, txScript := s.txScript.drop (n + 1),
      txLog := s.txLog ++ (frames.take n).map (fun f => ⟨f, .ok⟩) ++ [⟨frame, .fail⟩] }) := by
  subst hframes
  obtain ⟨hn, hget⟩ := List.getElem?_eq_some_iff.mp hframe
  rw [List.length_map] at hn
  rw [List.getElem_map] at hget
  obtain ⟨q, hq⟩ := transmitAll_failed hn hok hfail
  rw [execEncoder_eq hi, hq, ← hget, ← List.map_take, List.map_map]
  rfl

/-- Settles O40: `execEncoder_failed` for the frames of the command's own plan. -/
theorem encoderStopsAtTheFirstFailure : Obligations.EncoderStopsAtTheFirstFailure := by
  intro i s n frame hi hframe hok hfail
  have hbytes : ((planOf i s).map Prod.snd)[n]? = some frame.2 := by rw [List.getElem?_map, hframe]; rfl
  rw [execEncoder_failed hi rfl hbytes hok hfail, ← List.map_take, List.map_map]
  rfl

/-- An encoder command that ends OK has sent its whole plan (R121). -/
theorem execEncoder_txLog_of_ok {i : Instr} {s t : State} (hi : i = .encInit ∨ i = .encRefresh)
    (h : exec i s = .next t) (hstatus : t.rspStatus = 0) : t.txLog = s.txLog ++ sentOk (planOf i s) := by
  rw [execEncoder_eq hi] at h
  rcases finishTransmit_cases (planOf i s) s with ⟨-, e⟩ | ⟨n, hn, -, -, e⟩ | ⟨n, hn, -, -, e⟩ <;>
    rw [e] at h <;> cases h
  · rfl
  · exact absurd hstatus (show (4 : BitVec 3) ≠ 0 by decide)

/-! ### ENC_INIT -/

/-- The bytes of ENC_INIT's plan are the four broadcast writes (R122). -/
theorem initPlan_frames (c : Config) : (initPlan c).map Prod.snd = initFrames c := by
  simp only [initPlan, initFrames, broadcastFrame_eq, List.map_cons, List.map_nil]

/-- Settles O37: an encoder command's two ways to end, its frames being the four broadcast writes. -/
theorem encInitSendsFourBroadcasts : Obligations.EncInitSendsFourBroadcasts :=
  ⟨decodeOfEncodeGivesTheCommand .encInit rfl, fun s =>
    ⟨execEncoder_allOk (.inl rfl) (initPlan_frames s.cfg),
      fun _ _ => execEncoder_failed (.inl rfl) (initPlan_frames s.cfg)⟩⟩

/-! ### ENC_REFRESH -/

/-- The command in slot k of frame(r, t) takes bytes 2k and 2k + 1 (R124). -/
theorem getElem_refreshFrame (s : State) (r t : Nat) {k : Nat} (hk : k < s.cfg.nSeg) :
    (refreshFrame s r t)[2 * k]? = some (refreshSlot s r t k).1 ∧
      (refreshFrame s r t)[2 * k + 1]? = some (refreshSlot s r t k).2 := by
  rw [refreshFrame_eq]
  exact getElem_flatMap_pairs (refreshSlot s r t) hk

/-- The register address in slot k of frame(r, t): r in the target's slot, the no-op's elsewhere (R124). -/
theorem refreshSlot_fst (s : State) (r t k : Nat) :
    (refreshSlot s r t k).1 = if s.cfg.nSeg - 1 - k = t then BitVec.ofNat 8 r else 0x00 := by
  rw [refreshSlot, apply_ite Prod.fst]

/-- The value byte in slot k of frame(r, t): row r − 1's raw byte in the target's slot, NOOP_DATA elsewhere (R124). -/
theorem refreshSlot_snd (s : State) {r : Nat} (t k : Nat) (hr : r - 1 < 8) :
    (refreshSlot s r t k).2 = if s.cfg.nSeg - 1 - k = t
      then (if t < s.segCount then s.mem.read (cellAddr s.cfg (r - 1) t) else 0x00) else s.cfg.noopData := by
  rw [refreshSlot, apply_ite Prod.snd, rawByte, memRead]
  simp only [hr, true_and]

/-- Settles O38: the frames are those of `refreshPlan`, and an encoder command ends in one of two ways. -/
theorem encRefreshSendsTheClosedForm : Obligations.EncRefreshSendsTheClosedForm := by
  refine ⟨decodeOfEncodeGivesTheCommand .encRefresh rfl, fun s => ?_⟩
  have hlength : ((refreshPlan s).map Prod.snd).length = 8 * s.cfg.nSeg := by
    rw [List.length_map, refreshPlan_length]
  refine ⟨(refreshPlan s).map Prod.snd, hlength, fun r t h1 h8 ht => ?_, ?_, ?_⟩
  · refine ⟨refreshFrame s r t, ?_, refreshFrame_length s r t, fun k hk => ?_⟩
    · rw [List.getElem?_map, getElem_refreshPlan s h1 h8 ht]
      rfl
    · rw [← refreshSlot_fst, ← refreshSlot_snd s t k (by omega)]
      exact getElem_refreshFrame s r t hk
  · rw [← hlength]
    exact execEncoder_allOk (.inr rfl) rfl
  · exact fun _ _ => execEncoder_failed (.inr rfl) rfl

/-! ### The counts of a refresh -/

/-- How many of the `n` commands in these bytes carry data: their register address is not 0x00 (R126). -/
def dataCommands (n : Nat) (bytes : List Byte) : Nat :=
  (List.range n).countP (fun k => bytes[2 * k]? != some 0x00)

/-- Each frame of a refresh is a frame(r, t) with r in 1..8 and t in 0..N_SEG − 1 (R124). -/
theorem mem_refreshPlan {s : State} {f : Sequencer × List Byte} (hf : f ∈ refreshPlan s) :
    ∃ r t, 1 ≤ r ∧ r ≤ 8 ∧ t < s.cfg.nSeg ∧ f.2 = refreshFrame s r t := by
  obtain ⟨r, hr, hrow⟩ := List.mem_flatMap.mp hf
  obtain ⟨t, ht, rfl⟩ := List.mem_map.mp hrow
  have hrange : 1 ≤ r ∧ r < 1 + 8 := List.mem_range'_1.mp hr
  exact ⟨r, t, hrange.1, by omega, List.mem_range.mp ht, rfl⟩

/-- A row register is not the no-op's address 0x00 (R124). -/
theorem rowRegister_ne_zero {r : Nat} (h1 : 1 ≤ r) (h8 : r ≤ 8) : BitVec.ofNat 8 r ≠ 0x00 := by
  intro h
  have hnat : r % 2 ^ 8 = 0 := by rw [← BitVec.toNat_ofNat, h]; rfl
  omega

/-- A frame of a refresh carries data in one slot, the target's (R124). -/
theorem dataCommands_refreshFrame (s : State) {r t : Nat} (h1 : 1 ≤ r) (h8 : r ≤ 8) (ht : t < s.cfg.nSeg) :
    dataCommands s.cfg.nSeg (refreshFrame s r t) = 1 := by
  have htarget : ∀ k ∈ List.range s.cfg.nSeg,
      ((refreshFrame s r t)[2 * k]? != some 0x00) = true ↔ (k == s.cfg.nSeg - 1 - t) = true := by
    intro k hmem
    have hk : k < s.cfg.nSeg := List.mem_range.mp hmem
    rw [(getElem_refreshFrame s r t hk).1, refreshSlot_fst, bne_iff_ne, beq_iff_eq, ne_eq, Option.some_inj]
    by_cases hslot : s.cfg.nSeg - 1 - k = t
    · simp only [hslot, if_true, rowRegister_ne_zero h1 h8, not_false_eq_true, true_iff]
      omega
    · simp only [hslot, if_false, not_true_eq_false, false_iff]
      omega
  rw [dataCommands, List.countP_congr htarget]
  exact List.count_eq_one_of_mem List.nodup_range (List.mem_range.mpr (by omega))

/-- A sum over the transactions of a refresh of a number each frame has alike. -/
theorem sum_sentOk_refreshPlan (s : State) {count : List Byte → Nat} {n : Nat}
    (h : ∀ r t, 1 ≤ r → r ≤ 8 → t < s.cfg.nSeg → count (refreshFrame s r t) = n) :
    ((sentOk (refreshPlan s)).map (fun rec => count rec.bytes)).sum = 8 * s.cfg.nSeg * n := by
  have heach : ∀ f ∈ refreshPlan s, count f.2 = n := by
    intro f hf
    obtain ⟨r, t, h1, h8, ht, hbytes⟩ := mem_refreshPlan hf
    rw [hbytes, h r t h1 h8 ht]
  rw [sentOk, List.map_map]
  calc ((refreshPlan s).map (fun f => count f.2)).sum
      = ((refreshPlan s).map (fun _ => n)).sum := by rw [List.map_congr_left heach]
    _ = 8 * s.cfg.nSeg * n := by
      rw [List.map_const', List.sum_replicate, refreshPlan_length, smul_eq_mul]

/-- Settles O39: the whole plan is sent, each frame has 2·N_SEG bytes and one data command. -/
theorem refreshCounts : Obligations.RefreshCounts := by
  intro s t h hstatus
  refine ⟨sentOk (refreshPlan s), execEncoder_txLog_of_ok (.inr rfl) h hstatus, ?_, ?_, ?_⟩
  · rw [sentOk_length, refreshPlan_length]
  · rw [sum_sentOk_refreshPlan s (count := List.length) fun r t _ _ _ => refreshFrame_length s r t]
    ring
  · exact (sum_sentOk_refreshPlan s (count := dataCommands s.cfg.nSeg) fun _ _ => dataCommands_refreshFrame s).trans
      (Nat.mul_one _)

/-! ### A refresh after one that failed -/

/-- Settles O42: a refresh that ended, with whatever status, has not touched the buffer, so the next one has the same
plan. -/
theorem retrySendsEverythingFromTheStart : Obligations.RetrySendsEverythingFromTheStart := by
  intro s t h _
  obtain ⟨st, script, sent, rfl⟩ := execEncoder_next (.inr rfl) h
  refine ⟨rfl, rfl, fun hok => ⟨_, execEncoder_allOk (.inr rfl) rfl ?_, rfl, ?_⟩⟩
  · rw [List.length_map]
    exact fun n hn => hok n (refreshPlan_length s ▸ hn)
  · exact congrArg _ List.map_map

end Sys2Proof.Machine
end

section
/-! Errors (60_exceptions.md). The causes an error of a command can have, with the state each leaves (R140, R141). -/

namespace Sys2Proof.Machine

/-- Command `i`, run from `s`, ends with an error and leaves the state given: one constructor per cause of R140 that a
command has. Only the encoder's error comes after something was sent. -/
inductive EndsWithError (s : State) : Instr → State → Prop
  /-- INVALID_ARGUMENT: a width that is no multiple of 8 (R80). -/
  | unevenWidth {n : Nat} (hwidth : n % 8 ≠ 0) : EndsWithError s (.construct n) (withResponse 2 0 s)
  /-- CAPACITY: a width beyond S_MAX (R80). -/
  | widthBeyondCapacity {n : Nat} (hover : s.cfg.sMax < n / 8) : EndsWithError s (.construct n) (withResponse 3 0 s)
  /-- CAPACITY: a growth beyond S_MAX (R86). -/
  | growthBeyondCapacity {x y : Nat} {v : Bool} (hover : s.cfg.sMax < x / 8 + 1) :
      EndsWithError s (.setPixelExp x y v) (withResponse 3 0 s)
  /-- IO_ERROR: transaction `n` of the command's plan is the first not answered OK, and is answered FAIL (R121). -/
  | transactionFailed {i : Instr} {n : Nat} {script : List TxAnswer} {sent : List TxRecord}
      (hencoder : i = .encInit ∨ i = .encRefresh) (hn : n < (planOf i s).length)
      (hok : ∀ m < n, answerAt s m = .ok) (hfail : answerAt s n = .fail) :
      EndsWithError s i (withResponse 4 0 { s with seq := .idle, txScript := script, txLog := s.txLog ++ sent })

/-- An encoder command that ends has status OK, or a transaction of it failed. -/
theorem execEncoder_ok_or_error {i : Instr} {s t : State} (hi : i = .encInit ∨ i = .encRefresh)
    (h : exec i s = .next t) : t.rspStatus = 0 ∨ EndsWithError s i t := by
  rw [execEncoder_eq hi] at h
  rcases finishTransmit_cases (planOf i s) s with ⟨-, e⟩ | ⟨n, hn, hok, hfail, e⟩ | ⟨n, -, -, -, e⟩ <;>
    rw [e] at h <;> cases h
  · exact .inl rfl
  · rw [List.append_assoc]
    exact .inr (.transactionFailed hi hn hok hfail)

/-- A command that ends has status OK or one of the errors it has a cause for (R140). -/
theorem exec_ok_or_error {i : Instr} {s t : State} (h : exec i s = .next t) :
    t.rspStatus = 0 ∨ EndsWithError s i t := by
  cases i with
  | construct w =>
    rcases execConstruct_cases w s with ⟨hwidth, e⟩ | ⟨-, hover, e⟩ | ⟨-, -, e⟩ <;> rw [e] at h <;> cases h
    · exact .inr (.unevenWidth hwidth)
    · exact .inr (.widthBeyondCapacity hover)
    · exact .inl rfl
  | getPixel x y => cases h; exact .inl rfl
  | setPixel x y v =>
    rcases execSetPixel_cases x y v s with ⟨-, e⟩ | ⟨-, e⟩ <;> rw [e] at h <;> cases h
    · exact .inl rfl
    · exact .inl rfl
  | setPixelExp x y v =>
    rcases execSetPixelExp_cases x y v s with ⟨-, e⟩ | ⟨-, hover, e⟩ | ⟨-, -, e⟩ <;> rw [e] at h <;> cases h
    · exact .inl rfl
    · exact .inr (.growthBeyondCapacity hover)
    · exact .inl rfl
  | getColumn x => cases h; exact .inl rfl
  | shiftLeft c => rw [execShiftLeft_eq] at h; cases h; exact .inl rfl
  | rawRead y seg => cases h; exact .inl rfl
  | clear => cases h; exact .inl rfl
  | encInit => exact execEncoder_ok_or_error (.inl rfl) h
  | encRefresh => exact execEncoder_ok_or_error (.inr rfl) h
  | readSegcount => cases h; exact .inl rfl

/-- An error leaves `B` and `S` as they are and answers 0x0000; unless it is IO_ERROR nothing was sent (R141). -/
theorem EndsWithError.frame {s t : State} {i : Instr} (h : EndsWithError s i t) :
    t.mem = s.mem ∧ t.segCount = s.segCount ∧ t.rspData = 0 ∧ (t.rspStatus ≠ 4 → t.txLog = s.txLog) := by
  cases h with
  | unevenWidth => exact ⟨rfl, rfl, rfl, fun _ => rfl⟩
  | widthBeyondCapacity => exact ⟨rfl, rfl, rfl, fun _ => rfl⟩
  | growthBeyondCapacity => exact ⟨rfl, rfl, rfl, fun _ => rfl⟩
  | transactionFailed => exact ⟨rfl, rfl, rfl, fun hne => absurd rfl hne⟩

/-- Settles O17: an illegal word changes the response alone, and a command's errors have the frame above. -/
theorem errorsChangeNeitherBufferNorWidth : Obligations.ErrorsChangeNeitherBufferNorWidth := by
  intro s t w later hready hstep herror
  have hsent := transactionsAreOnlyAppended s t hstep
  cases hdecode : decode w with
  | error e =>
    rw [step_illegal hready hdecode] at hstep
    cases hstep
    exact ⟨rfl, rfl, rfl, fun _ => rfl, hsent⟩
  | ok i =>
    rw [step_command hready hdecode] at hstep
    rcases exec_ok_or_error hstep with hok | hends
    · exact absurd hok herror
    · obtain ⟨hmem, hseg, hdata, hlog⟩ := hends.frame
      exact ⟨hmem, hseg, hdata, hlog, hsent⟩

/-- A command that answers leaves BUSY = 0 (R26). -/
theorem exec_busy {i : Instr} {s t : State} (h : exec i s = .next t) : t.busy = false := by
  rcases exec_next_shape h with ⟨st, d, m, n, rfl⟩ | ⟨-, st, script, sent, -, rfl⟩ <;> rfl

/-- Settles O18: the one cause of an illegal word, and those of a command's errors. -/
theorem statusesByCommand : Obligations.StatusesByCommand := by
  intro s t w later hready hstep
  cases hdecode : decode w with
  | error e =>
    rw [step_illegal hready hdecode] at hstep
    cases hstep
    exact ⟨rfl, rfl, fun _ => rfl, .inr (.inl ⟨rfl, e, rfl⟩)⟩
  | ok i =>
    rw [step_command hready hdecode] at hstep
    refine ⟨exec_rspValid hstep, exec_busy hstep, ?_⟩
    rcases exec_ok_or_error hstep with hok | hends
    · exact ⟨fun hne => absurd hok hne, .inl ⟨hok, i, rfl⟩⟩
    · obtain ⟨-, -, hdata, -⟩ := hends.frame
      refine ⟨fun _ => hdata, ?_⟩
      cases hends with
      | unevenWidth hwidth => exact .inr (.inr (.inl ⟨rfl, _, rfl, hwidth⟩))
      | widthBeyondCapacity hover => exact .inr (.inr (.inr (.inl ⟨rfl, .inl ⟨_, rfl, hover⟩⟩)))
      | growthBeyondCapacity hover => exact .inr (.inr (.inr (.inl ⟨rfl, .inr ⟨_, _, _, rfl, hover⟩⟩)))
      | transactionFailed hencoder hn hok hfail =>
        refine .inr (.inr (.inr (.inr ⟨rfl, ?_, _, ?_, hok, hfail⟩)))
        · exact hencoder.imp (congrArg _) (congrArg _)
        · rcases hencoder with rfl | rfl <;> rw [planOfWord, hdecode] <;> exact hn

end Sys2Proof.Machine
end

section
/-! The debug dump (R152): eight lines of one length, one after another. -/

namespace Sys2Proof.Machine

@[simp] theorem length_dumpRow (s : State) (y : Nat) : (dumpRow s y).length = 8 * s.segCount + 1 := by
  simp [dumpRow]

/-- The lines before line `n`. -/
theorem length_dumpRows (s : State) (n : Nat) :
    ((List.range n).flatMap (dumpRow s)).length = n * (8 * s.segCount + 1) := by
  simp only [List.length_flatMap, length_dumpRow, List.map_const', List.length_range, List.sum_replicate, smul_eq_mul]

/-- Column `x` of line `y`, the line feed being column W, stands `y` whole lines further on in the dump. -/
theorem getElem?_dumpRows (s : State) {n y x : Nat} (hy : y < n) (hx : x < 8 * s.segCount + 1) :
    ((List.range n).flatMap (dumpRow s))[y * (8 * s.segCount + 1) + x]? = (dumpRow s y)[x]? := by
  induction n with
  | zero => omega
  | succ n ih =>
    rw [List.range_succ, List.flatMap_append, List.flatMap_singleton]
    rcases Nat.lt_succ_iff_lt_or_eq.mp hy with hbefore | rfl
    · have hinside : y * (8 * s.segCount + 1) + x < n * (8 * s.segCount + 1) :=
        calc y * (8 * s.segCount + 1) + x
            < y * (8 * s.segCount + 1) + (8 * s.segCount + 1) := Nat.add_lt_add_left hx _
          _ = (y + 1) * (8 * s.segCount + 1) := (Nat.succ_mul y _).symm
          _ ≤ n * (8 * s.segCount + 1) := Nat.mul_le_mul_right _ hbefore
      rw [List.getElem?_append_left (by rwa [length_dumpRows]), ih hbefore]
    · have hpast := Nat.le_add_right (y * (8 * s.segCount + 1)) x
      rw [List.getElem?_append_right (by rwa [length_dumpRows]), length_dumpRows, Nat.add_sub_cancel_left]

theorem dumpRow_lineFeed (s : State) (y : Nat) : (dumpRow s y)[8 * s.segCount]? = some '\n' := by
  simp [dumpRow]

theorem dumpRow_pixel (s : State) (y : Nat) {x : Nat} (hx : x < 8 * s.segCount) :
    (dumpRow s y)[x]? = some (if pixel s x y then 'X' else '-') := by
  simp [dumpRow, List.getElem?_append_left, hx]

/-- Settles O44: the place of each character in its line, and of the line in the dump. -/
theorem debugDumpShowsThePixels : Obligations.DebugDumpShowsThePixels := by
  refine fun s => ⟨length_dumpRows s 8, fun y hy => ⟨?_, fun x hx => ?_⟩⟩
  · rw [debugDump, getElem?_dumpRows s hy (Nat.lt_succ_self _), dumpRow_lineFeed]
  · rw [debugDump, getElem?_dumpRows s hy (Nat.lt_succ_of_lt hx), dumpRow_pixel s y hx]

end Sys2Proof.Machine
end

section
/-! Reset (R160, R161), the hang of the transport (R171), and the parameters no step changes (R164). -/

namespace Sys2Proof.Machine

/-! ### `rst` -/

/-- Settles O9: `rst` is taken whatever BUSY is, and `hardReset` writes the registers alone. -/
theorem resetGivesTheResetValues : Obligations.ResetGivesTheResetValues := by
  intro s later hlegal hin
  exact ⟨hardReset { s with hostIn := later }, step_of_event hlegal hin,
    rfl, rfl, rfl, rfl, rfl, rfl, rfl, rfl, rfl, rfl, rfl⟩

/-! ### A command cut off by `rst` -/

/-- A command that is accepted and then cut off by `rst` (R65, R161). -/
theorem step_commandCutByRst {s : State} {w : Word} {k : Nat} {later : List HostEvent} (hlegal : s.cfg.Legal)
    (hidle : s.busy = false) (hin : s.hostIn = .commandCutByRst w k :: later) :
    step s = .next (cutWord w k (accept { s with hostIn := later })) := by
  have hready : cmdReady s = true := by rw [cmdReady, hidle]; rfl
  rw [step_of_event hlegal hin, stepEvent, hready]
  rfl

/-- Acceptance does not change what a word would send: the frames are built from `B`, `S` and the parameters. -/
theorem planOfWord_accept (w : Word) (s : State) (later : List HostEvent) :
    planOfWord w (accept { s with hostIn := later }) = planOfWord w s := rfl

theorem map_bytes_sentOk (plan : List (Sequencer × List Byte)) :
    (sentOk plan).map TxRecord.bytes = plan.map Prod.snd := by
  rw [sentOk, List.map_map]
  rfl

theorem ended_of_mem_sentOk {plan : List (Sequencer × List Byte)} {rec : TxRecord} (h : rec ∈ sentOk plan) :
    rec.ended = .ok := by
  obtain ⟨f, -, rfl⟩ := List.mem_map.mp h
  rfl

/-- The first `k` transactions all answered OK: they are sent, and the next one is cut (R161). -/
theorem transmitUntilCut_allOk {k : Nat} {plan : List (Sequencer × List Byte)} {s : State}
    {frame : Sequencer × List Byte} (hok : ∀ n < k, answerAt s n = .ok) (hframe : plan[k]? = some frame) :
    (transmitUntilCut k plan s).txLog = s.txLog ++ (sentOk (plan.take k) ++ [⟨frame.2, .cut⟩]) := by
  have htake : ∀ n < (plan.take k).length, answerAt s n = .ok :=
    fun n hn => hok n (lt_of_lt_of_le hn (List.length_take_le k plan))
  obtain ⟨q, hq⟩ := transmitAll_allOk htake
  rw [transmitUntilCut, hq, hframe, ← List.append_assoc]
  rfl

/-- What a cut command sends is its frames up to some place, and at most the last of them is not answered OK (R121,
R161). -/
theorem transmitUntilCut_frames (k : Nat) (plan : List (Sequencer × List Byte)) (s : State) :
    ∃ q script sent, transmitUntilCut k plan s = { s with seq := q, txScript := script, txLog := s.txLog ++ sent } ∧
      (∃ n, n ≤ k + 1 ∧ sent.map TxRecord.bytes = (plan.map Prod.snd).take n) ∧
      (∀ n, n + 1 < sent.length → ∀ rec, sent[n]? = some rec → rec.ended = .ok) := by
  obtain ⟨q, script, sent, hcut, ⟨rfl, -⟩ | ⟨n, hn, e, hnk, rfl⟩⟩ := transmitUntilCut_cases k plan s
  · refine ⟨q, script, _, hcut, ⟨k, Nat.le_succ k, ?_⟩, fun m _ rec hrec => ?_⟩
    · rw [map_bytes_sentOk, List.map_take]
    · exact ended_of_mem_sentOk (List.mem_of_getElem? hrec)
  · refine ⟨q, script, _, hcut, ⟨n + 1, Nat.succ_le_succ hnk, ?_⟩, fun m hm rec hrec => ?_⟩
    · rw [← List.map_take, ← List.take_concat_get' plan n hn, List.map_append, List.map_append, map_bytes_sentOk]
      rfl
    · rw [List.length_append, List.length_singleton] at hm
      rw [List.getElem?_append_left (Nat.lt_of_succ_lt_succ hm)] at hrec
      exact ended_of_mem_sentOk (List.mem_of_getElem? hrec)

/-- Settles O10: the registers are those of `hardReset`, the stream that of `transmitUntilCut_frames`; what was sent is
read off the stream, so `transmitUntilCut_allOk` says which records it is. -/
theorem resetDuringCommandAbandonsIt : Obligations.ResetDuringCommandAbandonsIt := by
  intro s w k later hlegal hidle hin
  obtain ⟨q, script, sent, hcut, hframes, hended⟩ :=
    transmitUntilCut_frames k (planOfWord w s) (accept { s with hostIn := later })
  refine ⟨_, sent, step_commandCutByRst hlegal hidle hin, ?_⟩
  rw [cutWord, planOfWord_accept, hcut]
  refine ⟨rfl, rfl, rfl, rfl, rfl, rfl, rfl, rfl, rfl, rfl, hframes, hended, fun hok frame hframe => ?_⟩
  have hlog := transmitUntilCut_allOk (s := accept { s with hostIn := later }) hok hframe
  rw [hcut] at hlog
  exact List.append_cancel_left hlog

/-! ### The parameters -/

theorem exec_cfg {i : Instr} {s t : State} (h : exec i s = .next t) : t.cfg = s.cfg := by
  rcases exec_next_shape h with ⟨st, d, m, n, rfl⟩ | ⟨-, st, script, sent, -, rfl⟩ <;> rfl

theorem cutWord_cfg (w : Word) (k : Nat) (s : State) : (cutWord w k s).cfg = s.cfg := by
  obtain ⟨q, script, sent, hcut, -⟩ := transmitUntilCut_cases k (planOfWord w s) s
  rw [cutWord, hcut]
  rfl

/-- Settles O14, by the ways a step can go. -/
theorem parametersNeverChange : Obligations.ParametersNeverChange := by
  intro s t h
  obtain ⟨-, ⟨-, rfl⟩ | ⟨w, later, -, -, rfl⟩ | ⟨w, later, i, -, -, -, hexec⟩ | ⟨w, later, e, -, -, -, rfl⟩ |
    ⟨later, -, rfl⟩ | ⟨w, k, later, -, -, rfl⟩ | ⟨w, k, later, -, -, rfl⟩⟩ := step_cases h
  · rfl
  · rfl
  · exact exec_cfg (s := accept { s with hostIn := later }) hexec
  · rfl
  · rfl
  · rfl
  · exact cutWord_cfg w k (accept { s with hostIn := later })

/-! ### A transaction never answered -/

/-- An encoder command is stuck exactly when its first answer that is not OK never comes (R171). -/
theorem execEncoder_stuck_iff {i : Instr} {s : State} (hi : i = .encInit ∨ i = .encRefresh) :
    exec i s = .fault .transportSilent ↔
      ∃ n, n < (planOf i s).length ∧ (∀ m, m < n → answerAt s m = .ok) ∧ answerAt s n = .silent := by
  rw [execEncoder_eq hi]
  constructor
  · intro hstuck
    rcases finishTransmit_cases (planOf i s) s with ⟨-, e⟩ | ⟨n, hn, -, -, e⟩ | ⟨n, hn, hok, hsilent, -⟩
    · rw [e] at hstuck; cases hstuck
    · rw [e] at hstuck; cases hstuck
    · exact ⟨n, hn, hok, hsilent⟩
  · rintro ⟨n, hn, hok, hsilent⟩
    obtain ⟨q, hq⟩ := transmitAll_hung hn hok hsilent
    rw [hq]
    rfl

/-- Settles O41: the commands of the buffer always answer, and the encoder's hang where the transport does. -/
theorem stuckExactlyWhenNeverAnswered : Obligations.StuckExactlyWhenNeverAnswered := by
  intro i s
  by_cases hi : i = .encInit ∨ i = .encRefresh
  · rw [execEncoder_stuck_iff hi, and_iff_right hi]
  · obtain ⟨hinit, hrefresh⟩ := not_or.mp hi
    obtain ⟨t, hnext⟩ := bufferCommandsAlwaysComplete i s hinit hrefresh
    exact iff_of_false (fun hstuck => by rw [hnext] at hstuck; cases hstuck) (fun ⟨hencoder, _⟩ => hi hencoder)

end Sys2Proof.Machine
end
